-- ==== Sys2Proof/Word.lean ====
section
/-! DEFINITION. The word types of the FBU and the one way a field is put at a bit position of a
command word (spec 00_scope.md R7: bit 0 is the least significant bit). -/

namespace Sys2Proof

/-- One byte: a character code, an attribute byte, a port datum (R30, R51). -/
abbrev Byte := BitVec 8

/-- A 16-bit field: a port number, a byte offset, a row, a column, a divisor (R51). -/
abbrev Half := BitVec 16

/-- A 64-bit command or response word (R50, R53). -/
abbrev Word := BitVec 64

end Sys2Proof
end

