-- ==== Sys2Proof/Syntax.lean ====
section
/-! DEFINITION. The abstract syntax: the Cell value, the nine commands of spec/opcode_table.json, the
mnemonics and formats of 30_encoding.md, and the assembler line of R63. -/

namespace Sys2Proof

/-- A Cell (42_cell.md R85): an 8-bit character code and an attribute byte. A value, never state. -/
structure Cell where
  char : Byte
  attr : Byte
  deriving DecidableEq, Repr

/-- The commands, one constructor per row of spec/opcode_table.json (R59), operands in the order of the
document's signatures (R63). Every operand has exactly the width of its field (R51). -/
inductive Instr
  /-- `CELL.NEW char, bg, fg` (R86). -/
  | cellNew (char bg fg : Byte)
  /-- `CELL.DEF` (R87). -/
  | cellDef
  /-- `CELL.SETCH cell, c` (R88). -/
  | cellSetch (cell : Cell) (c : Byte)
  /-- `CELL.SETBG cell, color` (R89). -/
  | cellSetbg (cell : Cell) (color : Byte)
  /-- `CELL.SETFG cell, color` (R90). -/
  | cellSetfg (cell : Cell) (color : Byte)
  /-- `CELL.DRAW cell, offset` (R91). -/
  | cellDraw (cell : Cell) (offset : Half)
  /-- `FB.DRAW row, col, cell` (R103). -/
  | fbDraw (row col : Half) (cell : Cell)
  /-- `PORT.OUT port, value` (R81). -/
  | portOut (port : Half) (value : Byte)
  /-- `UART.DIV base, divisor` (R111). -/
  | uartDiv (base divisor : Half)
  deriving DecidableEq, Repr

/-- The nine mnemonics of R59. -/
inductive Mnemonic
  | cellNew | cellDef | cellSetch | cellSetbg | cellSetfg | cellDraw | fbDraw | portOut | uartDiv
  deriving DecidableEq, Repr

/-- The seven formats of R51. -/
inductive Format
  | n | k | m | d | g | p | u
  deriving DecidableEq, Repr

/-- The four colour names the document gives a number (R55). -/
inductive Colour
  | blue | green | red | white
  deriving DecidableEq, Repr

/-- An operand as R63 lets the host write it; which form may stand in which position: log entry 17. -/
inductive Operand
  /-- A number, decimal or hexadecimal. -/
  | num (n : Nat)
  /-- A quoted character, standing for its 8-bit code. -/
  | quoted (c : Char)
  /-- One of the four colour names of R55. -/
  | colour (c : Colour)
  /-- The name of an earlier result: a variable of the host, not a register of the block. -/
  | name (x : String)
  deriving DecidableEq, Repr

/-- An assembler line of R63: a mnemonic, then its operands in the order they are written. -/
structure AsmLine where
  mnemonic : Mnemonic
  operands : List Operand
  deriving DecidableEq, Repr

/-- The host's named results: the cell words it carries from one command to the next (R63). -/
abbrev HostVars := List (String × Half)

end Sys2Proof
end

