-- ==== Sys2Proof/WellFormed.lean ====
section
/-! DEFINITION. Which terms are well formed. R60: operand values are never illegal, and every field of
Instr has exactly its field's width, so every Instr is well formed. What can be ill formed is an assembler
line (R63): a wrong number of operands, or an operand whose value does not fit its field, whose high bits
R75 would drop silently. -/

namespace Sys2Proof

/-- The widths of a mnemonic's operands in the order R63 writes them (widths: R51). -/
def Mnemonic.operandWidths : Mnemonic → List Nat
  | .cellNew => [8, 8, 8]
  | .cellDef => []
  | .cellSetch => [16, 8]
  | .cellSetbg => [16, 8]
  | .cellSetfg => [16, 8]
  | .cellDraw => [16, 16]
  | .fbDraw => [16, 16, 16]
  | .portOut => [16, 8]
  | .uartDiv => [16, 16]

/-- The colour numbers of R55. -/
def Colour.number : Colour → Nat
  | .blue => 1
  | .green => 2
  | .red => 4
  | .white => 15

/-- The value an operand stands for (R63); a name stands for the host's result of that name, if any. -/
def Operand.value (vars : HostVars) : Operand → Option Nat
  | .num n => some n
  | .quoted c => some c.toNat
  | .colour c => some c.number
  | .name x => (vars.lookup x).map BitVec.toNat

/-- An operand has a value, and the value fits in `width` bits. -/
def Operand.fits (vars : HostVars) (width : Nat) (o : Operand) : Bool :=
  match o.value vars with
  | some v => decide (v < 2 ^ width)
  | none => false

/-- The right number of operands, each of which fits its field. R63 names the quoted character for a character
operand, the colour names for a colour and result names for a cell, and does not say whether they may stand
elsewhere: that every written form may stand in every operand position is the model's choice (DESIGN CHOICE,
log entry 17). -/
def AsmLine.wellFormed (vars : HostVars) (l : AsmLine) : Bool :=
  l.operands.length == l.mnemonic.operandWidths.length &&
    (l.operands.zip l.mnemonic.operandWidths).all fun (o, width) => o.fits vars width

/-- Every command is well formed: its operands have their fields' widths, and no operand value is illegal
(R60). One line per constructor, so that a new one cannot slip past. -/
def Instr.wellFormed : Instr → Bool
  | .cellNew _ _ _ => true
  | .cellDef => true
  | .cellSetch _ _ => true
  | .cellSetbg _ _ => true
  | .cellSetfg _ _ => true
  | .cellDraw _ _ => true
  | .fbDraw _ _ _ => true
  | .portOut _ _ => true
  | .uartDiv _ _ => true

end Sys2Proof
end

