-- ==== Sys2Proof/Decode.lean ====
section
/-! DEFINITION. The command word (30_encoding.md R50 to R52, R59 to R62, R65): the decoder, total on
every word and rejecting by name, and after it the encoder. -/

namespace Sys2Proof

/-- Why a word is no command (R60). -/
inductive IllegalWord
  /-- OP is 0x00 or in 0x0A..0xFF. -/
  | unassignedOpcode (op : BitVec 8)
  /-- OP is assigned and a reserved bit of its format is 1. -/
  | reservedBitSet (m : Mnemonic)
  deriving DecidableEq, Repr

/-- `OP = cmd[63:56]` (R50). -/
def opcodeOf (w : Word) : BitVec 8 := w.extractLsb' 56 8

/-- The opcode map of R59. -/
def mnemonicOf (op : BitVec 8) : Option Mnemonic :=
  if op = 0x01#8 then some .cellNew
  else if op = 0x02#8 then some .cellDef
  else if op = 0x03#8 then some .cellSetch
  else if op = 0x04#8 then some .cellSetbg
  else if op = 0x05#8 then some .cellSetfg
  else if op = 0x06#8 then some .cellDraw
  else if op = 0x07#8 then some .fbDraw
  else if op = 0x08#8 then some .portOut
  else if op = 0x09#8 then some .uartDiv
  else none

/-- The format column of R59. -/
def Mnemonic.format : Mnemonic → Format
  | .cellNew => .k
  | .cellDef => .n
  | .cellSetch => .m
  | .cellSetbg => .m
  | .cellSetfg => .m
  | .cellDraw => .d
  | .fbDraw => .g
  | .portOut => .p
  | .uartDiv => .u

/-- Every reserved bit of the format is 0 (R51). -/
def Format.reservedClear (w : Word) : Format → Bool
  | .n => w.extractLsb' 0 56 == 0#56
  | .k => w.extractLsb' 24 32 == 0#32
  | .m => w.extractLsb' 24 32 == 0#32
  | .d => w.extractLsb' 32 24 == 0#24
  | .g => w.extractLsb' 48 8 == 0#8
  | .p => w.extractLsb' 24 32 == 0#32
  | .u => w.extractLsb' 32 24 == 0#24

/-- A Cell from its 16-bit field: `CELL[7:0]` the character, `CELL[15:8]` the attribute (R52). -/
def Cell.ofHalf (h : Half) : Cell := ⟨h.extractLsb' 0 8, h.extractLsb' 8 8⟩

/-- A Cell as its 16-bit field (R52). -/
def Cell.toHalf (c : Cell) : Half := c.attr ++ c.char

/-- The fields of a word whose legality is settled (R51, R61 step 4). -/
def Mnemonic.extract (w : Word) : Mnemonic → Instr
  | .cellNew => .cellNew (w.extractLsb' 0 8) (w.extractLsb' 8 8) (w.extractLsb' 16 8)
  | .cellDef => .cellDef
  | .cellSetch => .cellSetch (Cell.ofHalf (w.extractLsb' 0 16)) (w.extractLsb' 16 8)
  | .cellSetbg => .cellSetbg (Cell.ofHalf (w.extractLsb' 0 16)) (w.extractLsb' 16 8)
  | .cellSetfg => .cellSetfg (Cell.ofHalf (w.extractLsb' 0 16)) (w.extractLsb' 16 8)
  | .cellDraw => .cellDraw (Cell.ofHalf (w.extractLsb' 0 16)) (w.extractLsb' 16 16)
  | .fbDraw => .fbDraw (w.extractLsb' 32 16) (w.extractLsb' 16 16) (Cell.ofHalf (w.extractLsb' 0 16))
  | .portOut => .portOut (w.extractLsb' 8 16) (w.extractLsb' 0 8)
  | .uartDiv => .uartDiv (w.extractLsb' 16 16) (w.extractLsb' 0 16)

/-- The decoder, in the order of R61: the opcode, then the reserved bits, then the fields. -/
def decode (w : Word) : Except IllegalWord Instr :=
  match mnemonicOf (opcodeOf w) with
  | none => .error (.unassignedOpcode (opcodeOf w))
  | some m =>
    if m.format.reservedClear w then .ok (m.extract w) else .error (.reservedBitSet m)

/-- A word the block takes as a command. -/
def legalWord (w : Word) : Bool :=
  match decode w with
  | .ok _ => true
  | .error _ => false

/-- The mnemonic as the opcode table spells it (R59). -/
def Mnemonic.text : Mnemonic → String
  | .cellNew => "CELL.NEW"
  | .cellDef => "CELL.DEF"
  | .cellSetch => "CELL.SETCH"
  | .cellSetbg => "CELL.SETBG"
  | .cellSetfg => "CELL.SETFG"
  | .cellDraw => "CELL.DRAW"
  | .fbDraw => "FB.DRAW"
  | .portOut => "PORT.OUT"
  | .uartDiv => "UART.DIV"

/-- A command's mnemonic. -/
def Instr.mnemonic : Instr → Mnemonic
  | .cellNew _ _ _ => .cellNew
  | .cellDef => .cellDef
  | .cellSetch _ _ => .cellSetch
  | .cellSetbg _ _ => .cellSetbg
  | .cellSetfg _ _ => .cellSetfg
  | .cellDraw _ _ => .cellDraw
  | .fbDraw _ _ _ => .fbDraw
  | .portOut _ _ => .portOut
  | .uartDiv _ _ => .uartDiv

/-- A row of the summary of R65. -/
structure OpcodeRow where
  mnemonic : Mnemonic
  pattern : Word
  mask : Word
  deriving DecidableEq, Repr

/-- `cmd & mask == match` (R59). -/
def OpcodeRow.selects (r : OpcodeRow) (w : Word) : Bool := w &&& r.mask == r.pattern

/-- The summary of R65, row by row. -/
def opcodeTable : List OpcodeRow :=
  [ ⟨.cellNew, 0x0100000000000000#64, 0xFFFFFFFFFF000000#64⟩,
    ⟨.cellDef, 0x0200000000000000#64, 0xFFFFFFFFFFFFFFFF#64⟩,
    ⟨.cellSetch, 0x0300000000000000#64, 0xFFFFFFFFFF000000#64⟩,
    ⟨.cellSetbg, 0x0400000000000000#64, 0xFFFFFFFFFF000000#64⟩,
    ⟨.cellSetfg, 0x0500000000000000#64, 0xFFFFFFFFFF000000#64⟩,
    ⟨.cellDraw, 0x0600000000000000#64, 0xFFFFFFFF00000000#64⟩,
    ⟨.fbDraw, 0x0700000000000000#64, 0xFFFF000000000000#64⟩,
    ⟨.portOut, 0x0800000000000000#64, 0xFFFFFFFFFF000000#64⟩,
    ⟨.uartDiv, 0x0900000000000000#64, 0xFFFFFFFF00000000#64⟩ ]

/-- The value `v` with its bit 0 at bit `start` of a word. -/
def place (start : Nat) {width : Nat} (v : BitVec width) : Word := v.setWidth 64 <<< start

/-- The encoder, from the formats of R51 and the opcodes of R59; reserved bits are 0 (R50). -/
def encode : Instr → Word
  | .cellNew char bg fg => place 56 0x01#8 ||| place 16 fg ||| place 8 bg ||| place 0 char
  | .cellDef => place 56 0x02#8
  | .cellSetch cell c => place 56 0x03#8 ||| place 16 c ||| place 0 cell.toHalf
  | .cellSetbg cell color => place 56 0x04#8 ||| place 16 color ||| place 0 cell.toHalf
  | .cellSetfg cell color => place 56 0x05#8 ||| place 16 color ||| place 0 cell.toHalf
  | .cellDraw cell offset => place 56 0x06#8 ||| place 16 offset ||| place 0 cell.toHalf
  | .fbDraw row col cell =>
    place 56 0x07#8 ||| place 32 row ||| place 16 col ||| place 0 cell.toHalf
  | .portOut port value => place 56 0x08#8 ||| place 8 port ||| place 0 value
  | .uartDiv base divisor => place 56 0x09#8 ||| place 16 base ||| place 0 divisor

/-- The command word made of the low `nbits` bits of `w` (the host's numbering: bit 0 is the least
significant bit of the one word; every bit above is 0). -/
def tableWord (nbits w : Nat) : Word := BitVec.ofNat 64 (w % 2 ^ nbits)

/-- What the decoder reads from a table word; a value wider than the one 64-bit word is none (R62). -/
def decodeTableWord (nbits w : Nat) : Option Instr :=
  if w % 2 ^ nbits < 2 ^ 64 then (decode (tableWord nbits w)).toOption else none

end Sys2Proof
end

