-- ==== Sys2Proof/Config.lean ====
section
/-! DEFINITION. The open parameters of 00_scope.md R5 and 45_helpers.md R120. The block's own (the
capability of R6 and BOUNDS_POLICY) are a Config, which State carries and nothing changes (R15), so that a
statement over every state is a statement over every parameter value. -/

namespace Sys2Proof

/-- BOUNDS_POLICY (R5, R101, R107, decision D1). -/
inductive BoundsPolicy
  /-- The test as the document writes it: this hardware. -/
  | literal
  /-- The corrected variant of R107. -/
  | corrected
  deriving DecidableEq, Repr

/-- The parameters of one instance of the block. `fits` is R5's constraint: no address the block forms
wraps (R33). -/
structure Config where
  /-- FB_BASE, the byte address of `buffer[0]`. -/
  fbBase : Nat
  /-- ADDR_WIDTH, the bits of a memory address. -/
  addrWidth : Nat
  /-- BOUNDS_POLICY. -/
  policy : BoundsPolicy
  fits : fbBase + 65536 < 2 ^ addrWidth
  deriving DecidableEq, Repr

/-- What FB_BASE of this hardware is made from: OPEN in the spec (D10), so a constant with no body (log entry 1). -/
opaque Config.openBase : Nat

/-- By how many bits this hardware's addresses are wider than the 17 the constraint of R5 needs: OPEN (log entry 1). -/
opaque Config.openExtraWidth : Nat

/-- 17 address bits or more leave room for the 65537 bytes R5 asks for. -/
theorem Config.room (extra : Nat) : 65536 < 2 ^ (17 + extra) :=
  Nat.lt_of_lt_of_le (by decide : 65536 < 2 ^ 17) (Nat.pow_le_pow_right (by decide) (Nat.le_add_right _ _))

/-- A remainder that leaves room below `top`. -/
theorem Config.mod_sub_add_lt {below top : Nat} (n : Nat) (h : below < top) : n % (top - below) + below < top := by
  have := Nat.mod_lt n (Nat.sub_pos_of_lt h)
  omega

/-- A block with the literal bounds test whose base and width meet R5's constraint. Every pair the constraint
allows is given by some `base` (itself) and `extra` (the width less 17), and no other pair is. -/
def Config.literalAt (base extra : Nat) : Config where
  fbBase := base % (2 ^ (17 + extra) - 65536)
  addrWidth := 17 + extra
  policy := .literal
  fits := Config.mod_sub_add_lt base (Config.room extra)

/-- This hardware: open base and width, the literal bounds test (R5, D1). -/
def Config.thisHardware : Config := Config.literalAt Config.openBase Config.openExtraWidth

/-- The helpers' parameters (R120), all OPEN: an argument of every expansion. BANNER_LEN is the length
of `bannerText`. -/
structure HelperParams where
  clearChar : Byte
  clearFg : Byte
  clearBg : Byte
  bannerText : List Byte
  bannerRow : Half
  bannerStartCol : Half
  bannerFg : Byte
  bannerBg : Byte
  cursorCmdPort : Half
  cursorDataPort : Half
  cursorSelHigh : Byte
  cursorSelLow : Byte
  deriving DecidableEq, Repr

end Sys2Proof
end

