-- ==== Sys2Proof/Machine/State.lean ====
section
/-! DEFINITION. The state of the machine (10_state.md R13, R18, R22, R23), the reasons a step could
stop, and the state after reset. The block has no registers, program counter, flags, control registers
or accumulators (R10, R12, R14, R15), takes no exception and no interrupt (R140, R145) and has one
privilege level (R149), so State has no field for any of them. -/

namespace Sys2Proof.Machine

/-- The sequencer (R13): idle, or walking the latched command `cmd` with `step` of its writes already
performed. -/
inductive Seq
  | idle
  | busy (cmd : Word) (step : Nat)
  deriving DecidableEq, Repr

/-- A response (R53): `rsp[63:32]`, a signed status, and `rsp[31:0]`, a value. -/
structure Response where
  status : BitVec 32
  value : BitVec 32
  deriving DecidableEq, Repr

/-- One act of the block that something outside it can see. -/
inductive Event
  /-- `MemWrite(addr, 1, v)` (R31). -/
  | mem (addr : Nat) (v : Byte)
  /-- `PortWrite(port, v)` (R80). -/
  | port (port : Half) (v : Byte)
  /-- `respond(status, value)` (R53). -/
  | resp (r : Response)
  deriving DecidableEq, Repr

/-- The known bytes of the display memory by address (R30), addresses strictly rising. An address that is not
listed holds a byte nobody has chosen (R22, U7): it reads as no value (log entry 2). -/
abbrev Memory := List Host.Cell

/-- No step faults: the block raises no exception and no command traps, faults, aborts or hangs (R140).
With no constructor, no meaning can raise one; a failure is a status (R141, R143). -/
inductive Fault : Type
  deriving DecidableEq, Repr

/-- Why a step has no meaning. -/
inductive Refusal
  /-- Raised by `exec` for a command that has no meaning yet; no arm raises it now. Safe. -/
  | notModelled (mnemonic : String)
  deriving DecidableEq, Repr

/-- The machine: R23's tuple (`mem`, `mtrace`, `ptrace`, `resp`, `seq`), whose three records are kept as
ONE list in the order of issue (R39) and read back as views (`State.mtrace`, `State.ptrace`, `State.resp`
in Machine/Ops.lean); the mark of U1; the parameters of R5; and the words the host will issue. -/
structure State where
  /-- The parameters (R5, R22): fixed, changed by no step (R15). -/
  cfg : Config
  /-- The model's own: the command words the host has yet to issue, next first (R24, R174; log entry 3). -/
  commands : List Word
  /-- The sequencer (R13). -/
  seq : Seq
  /-- The known bytes of the display region (R18). -/
  mem : Memory
  /-- `mtrace`, `ptrace` and `resp` (R23), merged in the order of issue, oldest first (R39). -/
  issued : List Event
  /-- The mark "left the region" (R35, U1): set by an out-of-region write, never cleared. -/
  leftRegion : Bool
  deriving DecidableEq, Repr

/-- The state after reset of a block with the parameters `cfg` (R22, R160): idle, empty records, nothing
known of the display memory, no command issued. -/
def State.resetWith (cfg : Config) : State where
  cfg := cfg
  commands := []
  seq := .idle
  mem := []
  issued := []
  leftRegion := false

/-- This hardware right after reset (R22). -/
def State.reset : State := State.resetWith Config.thisHardware

end Sys2Proof.Machine
end

