-- ==== Sys2Proof/Machine/Flags.lean ====
section
/-! DEFINITION. The block has no flags, condition codes or predicates (10_state.md R14): its one outcome
is the status of a response. The status codes of R144 and the response word of R53 stand here. -/

namespace Sys2Proof.Machine

/-- STATUS_OK: the command was carried out (R144). -/
def statusOk : BitVec 32 := 0#32

/-- ST_RANGE, -1: a grid draw rejected for its coordinates (R141, R144). -/
def stRange : BitVec 32 := 0xFFFFFFFF#32

/-- ST_ILLEGAL, -2: the word is not a command (R143, R144). -/
def stIllegal : BitVec 32 := 0xFFFFFFFE#32

/-- STATUS read as the signed integer it is (R53). -/
def Response.statusInt (r : Response) : Int := r.status.toInt

/-- The document's one outcome: the command was carried out (R53: rely on the sign). -/
def Response.accepted (r : Response) : Bool := r.status == statusOk

/-- The 64-bit response word: STATUS in bits 63:32, VALUE in bits 31:0 (R53). -/
def Response.word (r : Response) : Word := r.status ++ r.value

/-- The Cell the host reads from `VALUE[15:0]` (R52, R53). -/
def Response.cell (r : Response) : Cell := Cell.ofHalf (r.value.extractLsb' 0 16)

end Sys2Proof.Machine
end

