-- ==== Sys2Proof/Machine/Operands.lean ====
section
/-! DEFINITION. The values the commands compute with: the parameters R5 fixes, the narrowing law
(40_fixed_width.md), colours and cells (R54, R56, 42_cell.md), the grid's arithmetic (43_framebuffer.md) and
the UART's operands (44_serial.md). -/

namespace Sys2Proof.Machine

/-! ### The values 00_scope.md R5 gives -/

/-- COLS. -/
def cols : Nat := 80
/-- ROWS. -/
def rows : Nat := 25
/-- CELL_BYTES. -/
def cellBytes : Nat := 2
/-- ROW_STRIDE, `COLS * CELL_BYTES`. -/
def rowStride : Nat := cols * cellBytes
/-- FB_LEN, `ROWS * ROW_STRIDE`: the bytes of the display region. -/
def fbLen : Nat := rows * rowStride
/-- LCR_OFFSET: the line-control register, from the UART's base. -/
def lcrOffset : Nat := 3
/-- DLAB_CMD: the divisor-latch-enable command byte. -/
def dlabCmd : Byte := 0x80#8
/-- SENTINEL_CHAR, `'T'` (the code is the spec's general knowledge, G5; log entry 4). -/
def sentinelChar : Byte := 0x54#8
/-- SENTINEL_FG, green. -/
def sentinelFg : Byte := 2#8
/-- SENTINEL_BG, black (the number is the spec's general knowledge, G2; log entry 4). -/
def sentinelBg : Byte := 0#8

/-! ### The narrowing law (R70 to R73) -/

/-- `narrow_W(v)` of a non-negative integer: `v mod 2^W`; never an error (R70, R73). -/
def narrow (width v : Nat) : BitVec width := BitVec.ofNat width v

/-- `narrow_W(v)` of a bit vector: its low `W` bits (R70). -/
def narrowBits {n : Nat} (width : Nat) (v : BitVec n) : BitVec width := v.setWidth width

/-- `narrow_W(v)` of a signed value: the low `W` bits of its two's complement (R71). -/
def narrowSigned (width : Nat) (v : Int) : BitVec width := BitVec.ofInt width v

/-- The accessor in the unsigned reading (R72): `zext(bits)`. -/
def readUnsigned {width : Nat} (bits : BitVec width) : Nat := bits.toNat

/-- The accessor in the signed reading (R72): `sext(bits)`. -/
def readSigned {width : Nat} (bits : BitVec width) : Int := bits.toInt

/-! ### Colours, the attribute byte, cells (R54, R56, R85 to R90) -/

/-- `nib(c) = c & 0xF`: the high four bits of a colour operand are ignored (R56). -/
def nib (c : Byte) : Byte := c &&& 0x0F#8

/-- `(nib(fg) << 4) | nib(bg)` (R54, R56). -/
def attrByte (fg bg : Byte) : Byte := (nib fg <<< 4) ||| nib bg

/-- The foreground nibble of an attribute byte, `attr[7:4]` (R54). -/
def foreground (attr : Byte) : BitVec 4 := attr.extractLsb' 4 4

/-- The background nibble of an attribute byte, `attr[3:0]` (R54). -/
def background (attr : Byte) : BitVec 4 := attr.extractLsb' 0 4

/-- `Construct(character, backgroundColor, textColor)` (R86). -/
def newCell (char bg fg : Byte) : Cell := ⟨char, attrByte fg bg⟩

/-- The default cell (R87). -/
def defaultCell : Cell := ⟨sentinelChar, (sentinelFg <<< 4) ||| sentinelBg⟩

/-- `SetCharacter(c)`: the attribute is kept (R88). -/
def setChar (cell : Cell) (c : Byte) : Cell := { cell with char := c }

/-- `SetBackground(color)`: the foreground nibble and the character are kept (R89). -/
def setBackground (cell : Cell) (color : Byte) : Cell :=
  { cell with attr := (cell.attr &&& 0xF0#8) ||| nib color }

/-- `SetTextColor(color)`: the background nibble and the character are kept (R90). -/
def setForeground (cell : Cell) (color : Byte) : Cell :=
  { cell with attr := (cell.attr &&& 0x0F#8) ||| (nib color <<< 4) }

/-- `zext_32(c)`: a Cell as a response value (R52, R53). -/
def cellValue (cell : Cell) : BitVec 32 := cell.toHalf.setWidth 32

/-! ### The grid (R100 to R107) -/

/-- ROW_LIMIT: 25 as the document writes it, 24 in the corrected variant (R101, R107). -/
def rowLimit : BoundsPolicy → Nat
  | .literal => 25
  | .corrected => 24

/-- COL_LIMIT: 80 as the document writes it, 79 in the corrected variant (R101, R107). -/
def colLimit : BoundsPolicy → Nat
  | .literal => 80
  | .corrected => 79

/-- The rejection condition `row > ROW_LIMIT or column > COL_LIMIT`, unsigned on the whole field (R101). -/
def gridRejects (policy : BoundsPolicy) (row col : Half) : Bool :=
  decide (row.toNat > rowLimit policy) || decide (col.toNat > colLimit policy)

/-- `offset = ROW*160 + COL*2`, exact (R58, R102). -/
def gridOffset (row col : Half) : Nat := row.toNat * 160 + col.toNat * 2

/-! ### The UART's operands (R57, R113, R114) -/

/-- The line-control port, `narrow_16(BASE + 3)` (R113). -/
def lineControlPort (base : Half) : Half := narrow 16 (base.toNat + lcrOffset)

/-- The high byte of a 16-bit value, `narrow_8(v >> 8)` (R114). -/
def highByte (v : Half) : Byte := narrowBits 8 (v >>> 8)

/-- The low byte of a 16-bit value, `narrow_8(v)` (R114). -/
def lowByte (v : Half) : Byte := narrowBits 8 v

end Sys2Proof.Machine
end

