-- ==== Sys2Proof/Machine/Ops.lean ====
section
/-! DEFINITION. The operations the commands are made of: the byte store, the two write primitives
`MemWrite` and `PortWrite`, `respond`, the latching of a command, and the views of R23's records. -/

namespace Sys2Proof.Machine

/-! ### The byte store -/

/-- Canonical form: addresses strictly rising (an unlisted address reads as no value, so no listed byte
equals it). Equal memories are equal lists. -/
abbrev Memory.wf (m : Memory) : Prop := m.Pairwise fun c d => c.1 < d.1

/-- The byte at an address, if known. -/
def Memory.read : Memory → Nat → Option Byte
  | [], _ => none
  | c :: rest, a => if c.1 = a then some c.2 else Memory.read rest a

/-- `mem[addr] <- v` (R31), keeping the canonical form. -/
def Memory.write : Memory → Nat → Byte → Memory
  | [], a, v => [(a, v)]
  | c :: rest, a, v =>
    if a < c.1 then (a, v) :: c :: rest
    else if a = c.1 then (a, v) :: rest
    else c :: Memory.write rest a v

/-! ### Addresses -/

/-- The byte address of `buffer[offset]`, exact (R33). -/
def fbAddr (cfg : Config) (offset : Nat) : Nat := cfg.fbBase + offset

/-- The address lies in the display region `FB_BASE .. FB_BASE + 3999` (R18, R44). -/
def inRegion (cfg : Config) (a : Nat) : Bool :=
  decide (cfg.fbBase ≤ a) && decide (a < cfg.fbBase + fbLen)

/-- A memory write outside the display region (R35). -/
def Event.leavesRegion (cfg : Config) : Event → Bool
  | .mem a _ => !inRegion cfg a
  | .port _ _ => false
  | .resp _ => false

/-! ### The sequencer's primitives -/

/-- One more write of the command in flight is performed (R13). -/
def Seq.advance : Seq → Seq
  | .idle => .idle
  | .busy cmd step => .busy cmd (step + 1)

/-- `MemWrite(addr, 1, v)` (R31): the byte is in memory at once, and the write is recorded. Outside the
region it is issued and recorded like any other, what it does there is not modelled, and the run is
marked (R35, U1). -/
def State.memWrite (s : State) (a : Nat) (v : Byte) : State :=
  { s with
    seq := s.seq.advance
    mem := if inRegion s.cfg a then s.mem.write a v else s.mem
    issued := s.issued ++ [.mem a v]
    leftRegion := s.leftRegion || !inRegion s.cfg a }

/-- `PortWrite(port, v)` (R80): recorded; what the device does with it is outside the block (R82, U3). -/
def State.portWrite (s : State) (port : Half) (v : Byte) : State :=
  { s with seq := s.seq.advance, issued := s.issued ++ [.port port v] }

/-- `respond(status, value)` (R53): the response is delivered and the sequencer is idle again (R13). -/
def State.respond (s : State) (status value : BitVec 32) : State :=
  { s with seq := .idle, issued := s.issued ++ [.resp ⟨status, value⟩] }

/-- What the block has in the place of taking an exception (R140, R147): a failure is delivered as the
response of the failing command, with VALUE 0 (R53); no state is saved, no mode changes, control goes
nowhere, and there is nothing to return from (R148). -/
def State.fail (s : State) (status : BitVec 32) : State := s.respond status 0#32

/-- From idle, a command is taken: it leaves the host's stream and is latched (R13). -/
def State.takeCommand (s : State) (w : Word) (rest : List Word) : State :=
  { s with commands := rest, seq := .busy w 0 }

/-- An illegal word: no write, `respond(ST_ILLEGAL, 0)` (R60, R143). -/
def State.rejectWord (s : State) : State := s.fail stIllegal

/-- The cell writer's two byte writes, character first (R91, R37). -/
def State.drawCell (s : State) (cell : Cell) (offset : Nat) : State :=
  (s.memWrite (fbAddr s.cfg offset) cell.char).memWrite (fbAddr s.cfg (offset + 1)) cell.attr

/-- Performing one recorded act. -/
def State.perform (s : State) : Event → State
  | .mem a v => s.memWrite a v
  | .port p v => s.portWrite p v
  | .resp r => s.respond r.status r.value

/-- Reset as an event (R160): the sequencer is idle with no command latched and no write pending, nothing
is written, the parameters stand (R22); the records start empty and the display memory is unknown. -/
def State.applyReset (s : State) : State := State.resetWith s.cfg

/-! ### The views of R23 -/

/-- The (address, byte) pair of a memory write. -/
def Event.memPart : Event → Option (Nat × Byte)
  | .mem a v => some (a, v)
  | .port _ _ => none
  | .resp _ => none

/-- The (port, byte) pair of a port write. -/
def Event.portPart : Event → Option (Half × Byte)
  | .mem _ _ => none
  | .port p v => some (p, v)
  | .resp _ => none

/-- The response of a response. -/
def Event.respPart : Event → Option Response
  | .mem _ _ => none
  | .port _ _ => none
  | .resp r => some r

/-- `mtrace`: the memory writes issued so far, oldest first. -/
def State.mtrace (s : State) : List (Nat × Byte) := s.issued.filterMap Event.memPart

/-- `ptrace`: the port writes issued so far, oldest first. -/
def State.ptrace (s : State) : List (Half × Byte) := s.issued.filterMap Event.portPart

/-- `resp`: the responses delivered so far, oldest first. -/
def State.resp (s : State) : List Response := s.issued.filterMap Event.respPart

/-- `buffer[i]`, the byte at `FB_BASE + i` (R18), if known. -/
def State.buffer (s : State) (i : Nat) : Option Byte := s.mem.read (fbAddr s.cfg i)

/-- `MemRead(addr, n)` (R8): the `n` bytes from `addr` on. No command reads (R2, R30). -/
def State.memRead (s : State) (a n : Nat) : List (Option Byte) :=
  (List.range n).map fun i => s.mem.read (a + i)

end Sys2Proof.Machine
end

