-- ==== Sys2Proof/Machine/Cells.lean ====
section
/-! DEFINITION. The CELL commands (42_cell.md R86 to R91). -/

namespace Sys2Proof.Machine

/-- CELL.NEW (R86). -/
def execCellNew (char bg fg : Byte) (s : State) : Host.Outcome State Fault Refusal :=
  .next (s.respond statusOk (cellValue (newCell char bg fg)))

/-- CELL.DEF (R87). -/
def execCellDef (s : State) : Host.Outcome State Fault Refusal :=
  .next (s.respond statusOk (cellValue defaultCell))

/-- CELL.SETCH (R88). -/
def execCellSetch (cell : Cell) (c : Byte) (s : State) : Host.Outcome State Fault Refusal :=
  .next (s.respond statusOk (cellValue (setChar cell c)))

/-- CELL.SETBG (R89). -/
def execCellSetbg (cell : Cell) (color : Byte) (s : State) : Host.Outcome State Fault Refusal :=
  .next (s.respond statusOk (cellValue (setBackground cell color)))

/-- CELL.SETFG (R90). -/
def execCellSetfg (cell : Cell) (color : Byte) (s : State) : Host.Outcome State Fault Refusal :=
  .next (s.respond statusOk (cellValue (setForeground cell color)))

/-- CELL.DRAW (R91): no bounds check, no alignment check (R35, R36). -/
def execCellDraw (cell : Cell) (offset : Half) (s : State) : Host.Outcome State Fault Refusal :=
  .next ((s.drawCell cell offset.toNat).respond statusOk 0#32)

end Sys2Proof.Machine
end

