-- ==== Sys2Proof/Machine/Framebuffer.lean ====
section
/-! DEFINITION. The grid draw (43_framebuffer.md R101 to R107). -/

namespace Sys2Proof.Machine

/-- FB.DRAW (R103): rejected with ST_RANGE and no write, or the two writes of the cell writer at the
pair's offset. -/
def execFbDraw (row col : Half) (cell : Cell) (s : State) : Host.Outcome State Fault Refusal :=
  if gridRejects s.cfg.policy row col then .next (s.fail stRange)
  else .next ((s.drawCell cell (gridOffset row col)).respond statusOk 0#32)

end Sys2Proof.Machine
end

