-- ==== Sys2Proof/Machine/Ports.lean ====
section
/-! DEFINITION. The port commands (41_port.md R81, 44_serial.md R111). -/

namespace Sys2Proof.Machine

/-- PORT.OUT (R81). -/
def execPortOut (port : Half) (value : Byte) (s : State) : Host.Outcome State Fault Refusal :=
  .next ((s.portWrite port value).respond statusOk 0#32)

/-- UART.DIV (R111): DLAB, then the divisor's high byte, then its low byte, both to the base port. -/
def execUartDiv (base divisor : Half) (s : State) : Host.Outcome State Fault Refusal :=
  .next ((((s.portWrite (lineControlPort base) dlabCmd).portWrite base (highByte divisor)).portWrite
    base (lowByte divisor)).respond statusOk 0#32)

end Sys2Proof.Machine
end

