-- ==== Sys2Proof/Machine/Dispatch.lean ====
section
/-! DEFINITION. One arm per command. -/

namespace Sys2Proof.Machine

def exec (i : Instr) (s : State) : Host.Outcome State Fault Refusal :=
  match i with
  | .cellNew char bg fg => Sys2Proof.Machine.execCellNew char bg fg s
  | .cellDef => Sys2Proof.Machine.execCellDef s
  | .cellSetch cell c => Sys2Proof.Machine.execCellSetch cell c s
  | .cellSetbg cell color => Sys2Proof.Machine.execCellSetbg cell color s
  | .cellSetfg cell color => Sys2Proof.Machine.execCellSetfg cell color s
  | .cellDraw cell offset => Sys2Proof.Machine.execCellDraw cell offset s
  | .fbDraw row col cell => Sys2Proof.Machine.execFbDraw row col cell s
  | .portOut port value => Sys2Proof.Machine.execPortOut port value s
  | .uartDiv base divisor => Sys2Proof.Machine.execUartDiv base divisor s

end Sys2Proof.Machine
end

