-- ==== Sys2Proof/Machine/Sequencer.lean ====
section
/-! DEFINITION. The sequencer write by write (10_state.md R13): the writes each command's rule lists, its
response, one transition of the sequencer, and a command in flight carried to its response. The step of
Step.lean is the atomic view R13 allows; that the two agree is a statement. -/

namespace Sys2Proof.Machine

/-- The two writes of the cell writer at an offset, character first (R91). -/
def cellWrites (cfg : Config) (cell : Cell) (offset : Nat) : List Event :=
  [.mem (fbAddr cfg offset) cell.char, .mem (fbAddr cfg (offset + 1)) cell.attr]

/-- The writes of a command, in the order its rule lists them (R38). -/
def instrWrites (cfg : Config) : Instr → List Event
  | .cellNew _ _ _ => []
  | .cellDef => []
  | .cellSetch _ _ => []
  | .cellSetbg _ _ => []
  | .cellSetfg _ _ => []
  | .cellDraw cell offset => cellWrites cfg cell offset.toNat
  | .fbDraw row col cell =>
    if gridRejects cfg.policy row col then [] else cellWrites cfg cell (gridOffset row col)
  | .portOut port value => [.port port value]
  | .uartDiv base divisor =>
    [.port (lineControlPort base) dlabCmd, .port base (highByte divisor), .port base (lowByte divisor)]

/-- The response of a command (R53). -/
def instrAnswer (cfg : Config) : Instr → Response
  | .cellNew char bg fg => ⟨statusOk, cellValue (newCell char bg fg)⟩
  | .cellDef => ⟨statusOk, cellValue defaultCell⟩
  | .cellSetch cell c => ⟨statusOk, cellValue (setChar cell c)⟩
  | .cellSetbg cell color => ⟨statusOk, cellValue (setBackground cell color)⟩
  | .cellSetfg cell color => ⟨statusOk, cellValue (setForeground cell color)⟩
  | .cellDraw _ _ => ⟨statusOk, 0#32⟩
  | .fbDraw row col _ => ⟨if gridRejects cfg.policy row col then stRange else statusOk, 0#32⟩
  | .portOut _ _ => ⟨statusOk, 0#32⟩
  | .uartDiv _ _ => ⟨statusOk, 0#32⟩

/-- The writes of a command word; an illegal word has none (R60). -/
def wordWrites (cfg : Config) (w : Word) : List Event :=
  match decode w with
  | .ok i => instrWrites cfg i
  | .error _ => []

/-- The response of a command word (R53, R60). -/
def wordAnswer (cfg : Config) (w : Word) : Response :=
  match decode w with
  | .ok i => instrAnswer cfg i
  | .error _ => ⟨stIllegal, 0#32⟩

/-- One transition of the sequencer (R13): idle, it takes the host's next command, if there is one; busy,
it performs the next write of the command, or, when the writes are done, responds. -/
def State.microStep (s : State) : State :=
  match s.seq with
  | .idle =>
    match s.commands with
    | [] => s
    | w :: rest => s.takeCommand w rest
  | .busy w k =>
    match (wordWrites s.cfg w)[k]? with
    | some e => s.perform e
    | none => s.respond (wordAnswer s.cfg w).status (wordAnswer s.cfg w).value

/-- `n` transitions of the sequencer. -/
def State.microRun : Nat → State → State
  | 0, s => s
  | n + 1, s => State.microRun n s.microStep

/-- The command in flight carried to its response: the writes still to do, in order, then the response
(R13, R38). -/
def State.finishCommand (s : State) (w : Word) (k : Nat) : State :=
  (((wordWrites s.cfg w).drop k).foldl State.perform s).respond
    (wordAnswer s.cfg w).status (wordAnswer s.cfg w).value

end Sys2Proof.Machine
end

