-- ==== Sys2Proof/Machine/Step.lean ====
section
/-! DEFINITION. One step of the machine: up to the next response, or waiting when there is nothing to do. -/

namespace Sys2Proof.Machine

/-- One step, the atomic view of a command (R13, D27). Idle with a command to take: it is latched, and is
executed or, being illegal, rejected (R60, R61). Idle with none: the block waits, nothing changes (R153,
R161). A command already in flight is carried to its response; no other is taken meanwhile (R13). -/
def step (s : State) : Host.Outcome State Fault Refusal :=
  match s.seq with
  | .busy w k => .next (s.finishCommand w k)
  | .idle =>
    match s.commands with
    | [] => .next s
    | w :: rest =>
      match decode w with
      | .ok i => exec i (s.takeCommand w rest)
      | .error _ => .next (s.takeCommand w rest).rejectWord

/-- `s` with the word `w` as the host's next command, the block idle so that the next step takes it (log
entry 3). A command is not stored in any memory (R42), so this is where the step's next instruction
comes from. -/
def State.withFetchWord (s : State) (nbits w : Nat) : State :=
  { s with seq := .idle, commands := tableWord nbits w :: s.commands }

end Sys2Proof.Machine
end

