-- ==== Sys2Proof/Machine/Assembler.lean ====
section
/-! DEFINITION. The host's assembler (30_encoding.md R63): the operands in the order of the document's
signatures, each narrowed to its field by the law of R70 when the host packs it (R75, R170). -/

namespace Sys2Proof.Machine

/-- The command of a mnemonic and its operand values in R63's order, each narrowed to its field; none when the
number of operands is wrong. -/
def buildInstr : Mnemonic → List Nat → Option Instr
  | .cellNew, [char, bg, fg] => some (.cellNew (BitVec.ofNat 8 char) (BitVec.ofNat 8 bg) (BitVec.ofNat 8 fg))
  | .cellDef, [] => some .cellDef
  | .cellSetch, [cell, c] => some (.cellSetch (Cell.ofHalf (BitVec.ofNat 16 cell)) (BitVec.ofNat 8 c))
  | .cellSetbg, [cell, color] =>
    some (.cellSetbg (Cell.ofHalf (BitVec.ofNat 16 cell)) (BitVec.ofNat 8 color))
  | .cellSetfg, [cell, color] =>
    some (.cellSetfg (Cell.ofHalf (BitVec.ofNat 16 cell)) (BitVec.ofNat 8 color))
  | .cellDraw, [cell, offset] =>
    some (.cellDraw (Cell.ofHalf (BitVec.ofNat 16 cell)) (BitVec.ofNat 16 offset))
  | .fbDraw, [row, col, cell] =>
    some (.fbDraw (BitVec.ofNat 16 row) (BitVec.ofNat 16 col) (Cell.ofHalf (BitVec.ofNat 16 cell)))
  | .portOut, [port, value] => some (.portOut (BitVec.ofNat 16 port) (BitVec.ofNat 8 value))
  | .uartDiv, [base, divisor] => some (.uartDiv (BitVec.ofNat 16 base) (BitVec.ofNat 16 divisor))
  | _, _ => none

/-- The command of an assembler line; none when an operand names no result of the host, or the number of
operands is wrong. -/
def assemble (vars : HostVars) (l : AsmLine) : Option Instr :=
  (l.operands.mapM (Operand.value vars)).bind (buildInstr l.mnemonic)

/-- A command's operands as numbers, in R63's order. -/
def operandNumbers : Instr → List Nat
  | .cellNew char bg fg => [char.toNat, bg.toNat, fg.toNat]
  | .cellDef => []
  | .cellSetch cell c => [cell.toHalf.toNat, c.toNat]
  | .cellSetbg cell color => [cell.toHalf.toNat, color.toNat]
  | .cellSetfg cell color => [cell.toHalf.toNat, color.toNat]
  | .cellDraw cell offset => [cell.toHalf.toNat, offset.toNat]
  | .fbDraw row col cell => [row.toNat, col.toNat, cell.toHalf.toNat]
  | .portOut port value => [port.toNat, value.toNat]
  | .uartDiv base divisor => [base.toNat, divisor.toNat]

/-- The assembler line of a command, its operands as numbers. -/
def disassemble (i : Instr) : AsmLine := ⟨i.mnemonic, (operandNumbers i).map Operand.num⟩

end Sys2Proof.Machine
end

