-- ==== Sys2Proof/Machine/Host.lean ====
section
/-! DEFINITION. The host (10_state.md R24, 30_encoding.md R63): it issues one command at a time, waits for the
response, and may keep the resulting cell or the status under a name. Names are the host's variables; the
block has no register for them (R10). -/

namespace Sys2Proof.Machine

/-- A line of a host's program: `cell <- COMMAND`, `COMMAND -> status`, or the command alone (R63). -/
structure HostLine where
  /-- The name that takes the resulting cell. -/
  cellName : Option String
  line : AsmLine
  /-- The name that takes the status. -/
  statusName : Option String
  deriving DecidableEq, Repr

/-- What the host keeps between commands: cells and statuses by name, the latest first. -/
structure HostNames where
  cells : HostVars
  statuses : List (String × BitVec 32)
  deriving DecidableEq, Repr

/-- Keep `v` under a name, if one is given. -/
def keepUnder {α : Type} (name : Option String) (v : α) (kept : List (String × α)) : List (String × α) :=
  match name with
  | none => kept
  | some x => (x, v) :: kept

/-- The host's names after a response to a line: the cell is `VALUE[15:0]` (R52, R53). -/
def HostNames.record (h : HostNames) (l : HostLine) (r : Response) : HostNames where
  cells := keepUnder l.cellName r.cell.toHalf h.cells
  statuses := keepUnder l.statusName r.status h.statuses

/-- The host issues the command of a line and takes its response. None when the block is busy (the host waits,
R24), or when the line assembles to no command. -/
def hostIssue (h : HostNames) (l : HostLine) (s : State) : Option (HostNames × State) :=
  if s.seq = .idle then
    match assemble h.cells l.line with
    | none => none
    | some i =>
      match step { s with commands := encode i :: s.commands } with
      | .next t => (t.resp.getLast?).map fun r => (h.record l r, t)
      | .fault _ => none
      | .refused _ => none
  else none

/-- The host issues some lines, each after the response of the one before (R24, R126). -/
def hostRun : HostNames → List HostLine → State → Option (HostNames × State)
  | h, [], s => some (h, s)
  | h, l :: rest, s =>
    match hostIssue h l s with
    | none => none
    | some (h', t) => hostRun h' rest t

/-- The expansion of `CELL.PUT offset, char, fg, bg` as R121 writes it, its cell carried under a name. -/
def cellPutLines (offset : Half) (char fg bg : Byte) : List HostLine :=
  [⟨some "c", ⟨.cellNew, [.num char.toNat, .num bg.toNat, .num fg.toNat]⟩, none⟩,
   ⟨none, ⟨.cellDraw, [.name "c", .num offset.toNat]⟩, none⟩]

/-- The expansion of `FB.CORNERS` as R124 writes it. -/
def fbCornersLines : List HostLine :=
  [⟨some "s", ⟨.cellDef, []⟩, none⟩,
   ⟨none, ⟨.fbDraw, [.num 0, .num 0, .name "s"]⟩, none⟩,
   ⟨none, ⟨.fbDraw, [.num 0, .num 79, .name "s"]⟩, none⟩,
   ⟨none, ⟨.fbDraw, [.num 24, .num 0, .name "s"]⟩, none⟩,
   ⟨none, ⟨.fbDraw, [.num 24, .num 79, .name "s"]⟩, none⟩]

end Sys2Proof.Machine
end

