-- ==== Sys2Proof/Machine/Helpers.lean ====
section
/-! DEFINITION. The pseudo-commands (45_helpers.md R121 to R125): the sequences of commands the host
issues (R64, R126). They are the host's, not the block's. Where an expansion uses the result of an
earlier command, the host carries it; the value written here is the one that command answers. -/

namespace Sys2Proof.Machine

/-- `CELL.PUT offset, char, fg, bg` (R121); foreground before background, unlike CELL.NEW. -/
def cellPut (offset : Half) (char fg bg : Byte) : List Instr :=
  [.cellNew char bg fg, .cellDraw (newCell char bg fg) offset]

/-- The in-grid pairs, row by row, ascending (R122). -/
def gridPairs : List (Half × Half) :=
  (List.range rows).flatMap fun row =>
    (List.range cols).map fun col => (narrow 16 row, narrow 16 col)

/-- The blank cell of clear-screen (R122). -/
def blankCell (p : HelperParams) : Cell := newCell p.clearChar p.clearBg p.clearFg

/-- Clear-screen over some pairs: one blank cell, drawn at each (R122). -/
def clearOver (p : HelperParams) (pairs : List (Half × Half)) : List Instr :=
  .cellNew p.clearChar p.clearBg p.clearFg :: pairs.map fun q => .fbDraw q.1 q.2 (blankCell p)

/-- `FB.CLEAR` (R122): over the full grid. -/
def fbClear (p : HelperParams) : List Instr := clearOver p gridPairs

/-- The column of the banner's character `i`, `BANNER_START_COL + i` put into the column field (R123, R75). -/
def bannerCol (p : HelperParams) (i : Nat) : Half := narrow 16 (p.bannerStartCol.toNat + i)

/-- The commands for the banner's character `i`; none once the string is exhausted (R123). -/
def bannerChar (p : HelperParams) (i : Nat) : List Instr :=
  match p.bannerText[i]? with
  | none => []
  | some ch =>
    [.cellNew ch p.bannerBg p.bannerFg,
     .fbDraw p.bannerRow (bannerCol p i) (newCell ch p.bannerBg p.bannerFg)]

/-- The banner draw with an iteration bound, truncating once the string is exhausted (R123). -/
def fbBannerBounded (bound : Nat) (p : HelperParams) : List Instr :=
  (List.range bound).flatMap (bannerChar p)

/-- `FB.BANNER` (R123): BANNER_LEN iterations. -/
def fbBanner (p : HelperParams) : List Instr := fbBannerBounded p.bannerText.length p

/-- `FB.CORNERS` (R124): top-left, top-right, bottom-left, bottom-right. -/
def fbCorners : List Instr :=
  [.cellDef, .fbDraw 0#16 0#16 defaultCell, .fbDraw 0#16 79#16 defaultCell,
   .fbDraw 24#16 0#16 defaultCell, .fbDraw 24#16 79#16 defaultCell]

/-- `CUR.MOVE pos` (R125): the high pair, then the low pair. -/
def curMove (p : HelperParams) (pos : Half) : List Instr :=
  [.portOut p.cursorCmdPort p.cursorSelHigh, .portOut p.cursorDataPort (highByte pos),
   .portOut p.cursorCmdPort p.cursorSelLow, .portOut p.cursorDataPort (lowByte pos)]

/-- The words the host issues for a list of commands. -/
def commandWords (is : List Instr) : List Word := is.map encode

end Sys2Proof.Machine
end

