-- ==== Sys2Proof/Safety.lean ====
section
/-! DEFINITION. What a claim about a run is stated with: runs (R174), the last write to a byte or a port
(R39, R21), commands that stay in the region (R35, R106), and the machine's invariant. Every claim has
exclusive access (R162, R168) as its unwritten premise: the model has no other agent (log entry 6). -/

namespace Sys2Proof.Machine

/-- What is known of the last memory write to `a`, one act later. -/
def latestMem (a : Nat) (found : Option Byte) : Event → Option Byte
  | .mem b v => if b = a then some v else found
  | .port _ _ => found
  | .resp _ => found

/-- The byte the last memory write to `a` carried, if one was issued (R39). -/
def lastMemWrite (es : List Event) (a : Nat) : Option Byte := es.foldl (latestMem a) none

/-- What is known of the last write to a port, one act later. -/
def latestPort (port : Half) (found : Option Byte) : Event → Option Byte
  | .mem _ _ => found
  | .port q v => if q = port then some v else found
  | .resp _ => found

/-- The byte the last port write to `port` carried, if one was issued (R21, R115). -/
def lastPortWrite (es : List Event) (port : Half) : Option Byte := es.foldl (latestPort port) none

/-- Whether DLAB, bit 7 of the line-control register (R16), was set or cleared by the last byte sent to the
line-control port of the UART at `base`, if one was sent. What the UART made of it is outside the block (R116). -/
def dlabCommanded (s : State) (base : Half) : Option Bool :=
  (lastPortWrite s.issued (lineControlPort base)).map fun v => v.getLsbD 7

/-- The number of memory byte writes among some acts (R173). -/
def countMem (es : List Event) : Nat := (es.filterMap Event.memPart).length

/-- The number of port writes among some acts (R173). -/
def countPort (es : List Event) : Nat := (es.filterMap Event.portPart).length

/-- The pair is a cell of the stated grid, rows 0..24 and columns 0..79 (R100). -/
def InGrid (row col : Half) : Prop := row.toNat < rows ∧ col.toNat < cols

/-- A word none of whose writes leaves the display region (R35, R106). -/
def wordStaysInRegion (cfg : Config) (w : Word) : Bool :=
  (wordWrites cfg w).all fun e => !e.leavesRegion cfg

/-- What the sequencer must satisfy: of the latched command, at most all writes are performed (R13). -/
def Seq.legal (cfg : Config) : Seq → Prop
  | .idle => True
  | .busy w k => k ≤ (wordWrites cfg w).length

/-- What every response satisfies (R53, R144): one of three statuses, VALUE 0 with a failure, and
VALUE[31:16] 0 always. -/
def Response.legal (r : Response) : Prop :=
  (r.status = statusOk ∨ r.status = stRange ∨ r.status = stIllegal) ∧
    (r.status ≠ statusOk → r.value = 0#32) ∧ r.value.toNat < 2 ^ 16

/-- What every recorded act satisfies: an address the block can form (R33), a legal response. -/
def Event.legal (cfg : Config) : Event → Prop
  | .mem a _ => cfg.fbBase ≤ a ∧ a ≤ cfg.fbBase + 65536 ∧ a < 2 ^ cfg.addrWidth
  | .port _ _ => True
  | .resp r => r.legal

/-- The machine's invariant. -/
structure State.Inv (s : State) : Prop where
  /-- Memory keeps its canonical form. -/
  memWf : s.mem.wf
  /-- Only bytes of the display region are modelled (U1). -/
  memInRegion : ∀ c ∈ s.mem, inRegion s.cfg c.1 = true
  /-- The mark is set exactly when an out-of-region write has been issued (U1). -/
  markExact : s.leftRegion = s.issued.any (Event.leavesRegion s.cfg)
  /-- Every recorded act is legal. -/
  issuedLegal : ∀ e ∈ s.issued, e.legal s.cfg
  /-- The sequencer is legal. -/
  seqLegal : s.seq.legal s.cfg

/-- The block is idle and the host's next commands are `is`, then `rest`. -/
def State.Ready (s : State) (is : List Instr) (rest : List Word) : Prop :=
  s.seq = .idle ∧ s.commands = commandWords is ++ rest

end Sys2Proof.Machine
end

