-- ==== Sys2Proof/Certificates/Slice0/Obligations.lean ====
section
/-! DEFINITION. The statements for the provers, from the spec's numbered rules. Where a statement fixes a
whole next state by a record update, every field it does not name is unchanged: that is its frame. -/

open Sys2Proof Sys2Proof.Machine

/-! ### The command word (30_encoding.md) -/

/-- Every instruction survives encoding and decoding, with every operand at every value (R50, R51, R52). -/
def Obligations.EncodedInstructionDecodesBack : Prop :=
  ∀ i : Instr, i.wellFormed = true ∧ decode (encode i) = .ok i

/-- A command word has one spelling: encoding what a word decodes to gives the word (R50: reserved bits
are 0, so no bit of a legal word is dropped). -/
def Obligations.LegalWordEncodesBack : Prop :=
  ∀ (w : Word) (i : Instr), decode w = .ok i → encode i = w

/-- R65: the nine rows, each of which selects words of its own mnemonic; a word no row selects is illegal;
no two rows select one word. -/
def Obligations.OpcodeTableDecides : Prop :=
  opcodeTable.map (fun r => (r.mnemonic.text, r.pattern, r.mask)) =
    [ ("CELL.NEW", 0x0100000000000000#64, 0xFFFFFFFFFF000000#64),
      ("CELL.DEF", 0x0200000000000000#64, 0xFFFFFFFFFFFFFFFF#64),
      ("CELL.SETCH", 0x0300000000000000#64, 0xFFFFFFFFFF000000#64),
      ("CELL.SETBG", 0x0400000000000000#64, 0xFFFFFFFFFF000000#64),
      ("CELL.SETFG", 0x0500000000000000#64, 0xFFFFFFFFFF000000#64),
      ("CELL.DRAW", 0x0600000000000000#64, 0xFFFFFFFF00000000#64),
      ("FB.DRAW", 0x0700000000000000#64, 0xFFFF000000000000#64),
      ("PORT.OUT", 0x0800000000000000#64, 0xFFFFFFFFFF000000#64),
      ("UART.DIV", 0x0900000000000000#64, 0xFFFFFFFF00000000#64) ] ∧
  (∀ (w : Word), ∀ r ∈ opcodeTable, w &&& r.mask = r.pattern →
    ∃ i, decode w = .ok i ∧ i.mnemonic = r.mnemonic) ∧
  (∀ w : Word, (∀ r ∈ opcodeTable, w &&& r.mask ≠ r.pattern) → legalWord w = false) ∧
  (∀ w : Word, ∀ r ∈ opcodeTable, ∀ r' ∈ opcodeTable,
    w &&& r.mask = r.pattern → w &&& r'.mask = r'.pattern → r = r')

/-- R60 and R143: which words are illegal, what the block does with one, and that no operand value is. -/
def Obligations.IllegalWordsAreRejectedWithoutEffect : Prop :=
  (∀ w : Word, legalWord w = false ↔
    w.toNat / 2 ^ 56 = 0 ∨ 0x0A ≤ w.toNat / 2 ^ 56 ∨
    (w.toNat / 2 ^ 56 = 0x02 ∧ w.toNat % 2 ^ 56 ≠ 0) ∨
    (w.toNat / 2 ^ 56 ∈ [0x01, 0x03, 0x04, 0x05, 0x08] ∧ w.toNat / 2 ^ 24 % 2 ^ 32 ≠ 0) ∨
    (w.toNat / 2 ^ 56 ∈ [0x06, 0x09] ∧ w.toNat / 2 ^ 32 % 2 ^ 24 ≠ 0) ∨
    (w.toNat / 2 ^ 56 = 0x07 ∧ w.toNat / 2 ^ 48 % 2 ^ 8 ≠ 0)) ∧
  legalWord 0#64 = false ∧
  (∀ (s : State) (w : Word) (rest : List Word), s.seq = .idle → s.commands = w :: rest →
    legalWord w = false →
    step s = .next { s with commands := rest, issued := s.issued ++ [.resp ⟨0xFFFFFFFE#32, 0#32⟩] }) ∧
  (∀ (s : State) (w : Word) (rest : List Word), s.seq = .idle → s.commands = w :: rest →
    legalWord w = true →
    ∃ t r, step s = .next t ∧ t.resp = s.resp ++ [r] ∧ r.status ≠ 0xFFFFFFFE#32)

/-- A word of each command, written out from the formats, decodes to it (spec 95_test_vectors.md). -/
def Obligations.WrittenOutWordsDecode : Prop :=
  decode 0x0100000000143100#64 = .ok (.cellNew 0x00#8 0x31#8 0x14#8) ∧
  decode 0x0200000000000000#64 = .ok .cellDef ∧
  decode 0x0300000000412054#64 = .ok (.cellSetch ⟨0x54#8, 0x20#8⟩ 0x41#8) ∧
  decode 0x0400000000124141#64 = .ok (.cellSetbg ⟨0x41#8, 0x41#8⟩ 0x12#8) ∧
  decode 0x05000000000F4241#64 = .ok (.cellSetfg ⟨0x41#8, 0x42#8⟩ 0x0F#8) ∧
  decode 0x060000000F9F2054#64 = .ok (.cellDraw ⟨0x54#8, 0x20#8⟩ 3999#16) ∧
  decode 0x0700001900502054#64 = .ok (.fbDraw 25#16 80#16 ⟨0x54#8, 0x20#8⟩) ∧
  decode 0x080000000003FB80#64 = .ok (.portOut 0x3FB#16 0x80#8) ∧
  decode 0x0900000003F80C00#64 = .ok (.uartDiv 0x3F8#16 0x0C00#16)

/-- R53: the response word, and the three statuses as signed integers. -/
def Obligations.ResponseWordLayout : Prop :=
  (∀ r : Response, r.word.toNat = r.status.toNat * 2 ^ 32 + r.value.toNat) ∧
  Response.statusInt ⟨statusOk, 0#32⟩ = 0 ∧ Response.statusInt ⟨stRange, 0#32⟩ = -1 ∧
  Response.statusInt ⟨stIllegal, 0#32⟩ = -2

/-! ### The narrowing law (40_fixed_width.md) -/

/-- R70: the unsigned reading, its corner cases and the document's example. -/
def Obligations.NarrowingKeepsLowBits : Prop :=
  (∀ width v : Nat, (narrow width v).toNat = v % 2 ^ width ∧ (narrow width v).toNat < 2 ^ width ∧
    (v < 2 ^ width → (narrow width v).toNat = v) ∧
    narrow width (narrow width v).toNat = narrow width v) ∧
  (∀ width : Nat, (narrow width (2 ^ width)).toNat = 0 ∧
    (narrow width (2 ^ width - 1)).toNat = 2 ^ width - 1) ∧
  (∀ width a b : Nat,
    narrow width (a + b) = narrow width ((narrow width a).toNat + (narrow width b).toNat) ∧
    narrow width (a * b) = narrow width ((narrow width a).toNat * (narrow width b).toNat)) ∧
  (∀ (n width : Nat) (x : BitVec n), narrowBits width x = narrow width x.toNat) ∧
  narrow 16 0x1FFFF = 0xFFFF#16

/-- R71: the signed reading keeps the same bits; they stand for `bits` or `bits - 2^W`. -/
def Obligations.SignedNarrowingKeepsTheSameBits : Prop :=
  (∀ (width : Nat) (v : Int), 1 ≤ width →
    ((narrowSigned width v).toNat : Int) = v % 2 ^ width ∧
    readSigned (narrowSigned width v) =
      if (narrowSigned width v).getLsbD (width - 1) then ((narrowSigned width v).toNat : Int) - 2 ^ width
      else ((narrowSigned width v).toNat : Int)) ∧
  (∀ width v : Nat, narrowSigned width (v : Int) = narrow width v) ∧
  narrowSigned 8 128 = 0x80#8 ∧ readSigned (narrowSigned 8 128) = -128 ∧
  (∀ width : Nat, 1 ≤ width → readSigned (narrowSigned width (-1)) = -1) ∧
  narrowSigned 16 0x1FFFF = 0xFFFF#16 ∧ readSigned (narrowSigned 16 0x1FFFF) = -1

/-- R72: reading a value back through a wider container gives the value the bits stand for. -/
def Obligations.WideningReadsTheSameValue : Prop :=
  ∀ (width wider : Nat) (bits : BitVec width), width ≤ wider →
    readUnsigned (bits.setWidth wider) = readUnsigned bits ∧
    readSigned (bits.signExtend wider) = readSigned bits

/-! ### The cell commands (42_cell.md) -/

/-- R86: CELL.NEW. -/
def Obligations.CellNewAnswersConstructedCell : Prop :=
  ∀ (char bg fg : Byte) (s : State),
    decode (BitVec.ofNat 64 (0x01 * 2 ^ 56 + fg.toNat * 2 ^ 16 + bg.toNat * 2 ^ 8 + char.toNat)) =
      .ok (.cellNew char bg fg) ∧
    exec (.cellNew char bg fg) s = .next { s with
      seq := .idle
      issued := s.issued ++ [.resp ⟨0#32, BitVec.ofNat 32
        ((fg.toNat % 16 * 16 + bg.toNat % 16) * 256 + char.toNat)⟩] }

/-- R87: CELL.DEF. The numbers of 'T' and of black in 0x2054 are the spec's general knowledge (log entry 4). -/
def Obligations.CellDefAnswersSentinel : Prop :=
  ∀ s : State,
    decode (BitVec.ofNat 64 (0x02 * 2 ^ 56)) = .ok .cellDef ∧
    exec .cellDef s = .next { s with seq := .idle, issued := s.issued ++ [.resp ⟨0#32, 0x2054#32⟩] }

/-- R88: CELL.SETCH. -/
def Obligations.CellSetchReplacesCharacter : Prop :=
  ∀ (cell : Cell) (c : Byte) (s : State),
    decode (BitVec.ofNat 64 (0x03 * 2 ^ 56 + c.toNat * 2 ^ 16 + cell.attr.toNat * 2 ^ 8 + cell.char.toNat)) =
      .ok (.cellSetch cell c) ∧
    exec (.cellSetch cell c) s = .next { s with
      seq := .idle
      issued := s.issued ++ [.resp ⟨0#32, BitVec.ofNat 32 (cell.attr.toNat * 256 + c.toNat)⟩] }

/-- R89: CELL.SETBG. -/
def Obligations.CellSetbgReplacesLowNibble : Prop :=
  ∀ (cell : Cell) (color : Byte) (s : State),
    decode (BitVec.ofNat 64
      (0x04 * 2 ^ 56 + color.toNat * 2 ^ 16 + cell.attr.toNat * 2 ^ 8 + cell.char.toNat)) =
      .ok (.cellSetbg cell color) ∧
    exec (.cellSetbg cell color) s = .next { s with
      seq := .idle
      issued := s.issued ++ [.resp ⟨0#32, BitVec.ofNat 32
        ((cell.attr.toNat / 16 * 16 + color.toNat % 16) * 256 + cell.char.toNat)⟩] }

/-- R90: CELL.SETFG. -/
def Obligations.CellSetfgReplacesHighNibble : Prop :=
  ∀ (cell : Cell) (color : Byte) (s : State),
    decode (BitVec.ofNat 64
      (0x05 * 2 ^ 56 + color.toNat * 2 ^ 16 + cell.attr.toNat * 2 ^ 8 + cell.char.toNat)) =
      .ok (.cellSetfg cell color) ∧
    exec (.cellSetfg cell color) s = .next { s with
      seq := .idle
      issued := s.issued ++ [.resp ⟨0#32, BitVec.ofNat 32
        ((color.toNat % 16 * 16 + cell.attr.toNat % 16) * 256 + cell.char.toNat)⟩] }

/-- R92: the laws of nibble independence. -/
def Obligations.NibblesAreIndependent : Prop :=
  ∀ (c : Cell) (x y ch bg fg : Byte),
    foreground (setBackground c x).attr = foreground c.attr ∧
    background (setForeground c x).attr = background c.attr ∧
    (setBackground c x).char = c.char ∧ (setForeground c x).char = c.char ∧
    (setChar c x).attr = c.attr ∧
    setBackground (setBackground c x) y = setBackground c y ∧
    setForeground (setForeground c x) y = setForeground c y ∧
    setChar (setChar c x) y = setChar c y ∧
    setBackground (setForeground c x) y = setForeground (setBackground c y) x ∧
    newCell ch bg fg = setForeground (setBackground (setChar c ch) bg) fg

/-- R94: the five cell-value commands change nothing and answer from the command alone; of the others only the
two draws write memory. -/
def Obligations.CellValueCommandsArePure : Prop :=
  (∀ i : Instr, i.mnemonic ∈ [.cellNew, .cellDef, .cellSetch, .cellSetbg, .cellSetfg] →
    ∃ r : Response, ∀ s : State,
      exec i s = .next { s with seq := .idle, issued := s.issued ++ [.resp r] }) ∧
  (∀ i : Instr, i.mnemonic ≠ .cellDraw → i.mnemonic ≠ .fbDraw → ∀ s : State,
    ∃ t, exec i s = .next t ∧ t.mem = s.mem ∧ t.mtrace = s.mtrace)

/-- R91, R35, R36: CELL.DRAW at every offset: two byte writes, the character first, in or out of the region, odd
or even; a byte in the region then holds what was written; every byte but those two reads as before. -/
def Obligations.CellDrawWritesTwoBytes : Prop :=
  ∀ (cell : Cell) (offset : Half) (s : State),
    decode (BitVec.ofNat 64
      (0x06 * 2 ^ 56 + offset.toNat * 2 ^ 16 + cell.attr.toNat * 2 ^ 8 + cell.char.toNat)) =
      .ok (.cellDraw cell offset) ∧
    ∃ t, exec (.cellDraw cell offset) s = .next t ∧
      t.cfg = s.cfg ∧ t.commands = s.commands ∧ t.seq = .idle ∧
      t.issued = s.issued ++ [.mem (s.cfg.fbBase + offset.toNat) cell.char,
        .mem (s.cfg.fbBase + offset.toNat + 1) cell.attr, .resp ⟨0#32, 0#32⟩] ∧
      t.leftRegion = (s.leftRegion || decide (3999 ≤ offset.toNat)) ∧
      (offset.toNat < 4000 → t.mem.read (s.cfg.fbBase + offset.toNat) = some cell.char) ∧
      (offset.toNat + 1 < 4000 → t.mem.read (s.cfg.fbBase + offset.toNat + 1) = some cell.attr) ∧
      (∀ a, a ≠ s.cfg.fbBase + offset.toNat → a ≠ s.cfg.fbBase + offset.toNat + 1 →
        t.mem.read a = s.mem.read a)

/-- R91 (e): drawing the same cell twice leaves memory as after the first. -/
def Obligations.DrawingTwiceChangesMemoryOnce : Prop :=
  ∀ (cell : Cell) (offset : Half) (s : State),
    ∃ t u, exec (.cellDraw cell offset) s = .next t ∧ exec (.cellDraw cell offset) t = .next u ∧
      u.mem = t.mem ∧ u.leftRegion = t.leftRegion

/-! ### The grid draw (43_framebuffer.md) -/

/-- R101, R103: FB.DRAW on this hardware (BOUNDS_POLICY literal): rejected exactly when row > 25 or
column > 80, with no write; otherwise the two writes at row*160 + column*2. -/
def Obligations.FbDrawWithLiteralBounds : Prop :=
  State.reset.cfg.policy = .literal ∧
  ∀ (row col : Half) (cell : Cell) (s : State), s.cfg.policy = .literal →
    decode (BitVec.ofNat 64 (0x07 * 2 ^ 56 + row.toNat * 2 ^ 32 + col.toNat * 2 ^ 16 +
      cell.attr.toNat * 2 ^ 8 + cell.char.toNat)) = .ok (.fbDraw row col cell) ∧
    (25 < row.toNat ∨ 80 < col.toNat →
      exec (.fbDraw row col cell) s = .next { s with
        seq := .idle, issued := s.issued ++ [.resp ⟨0xFFFFFFFF#32, 0#32⟩] }) ∧
    (row.toNat ≤ 25 ∧ col.toNat ≤ 80 →
      ∃ t, exec (.fbDraw row col cell) s = .next t ∧
        t.cfg = s.cfg ∧ t.commands = s.commands ∧ t.seq = .idle ∧
        t.issued = s.issued ++ [.mem (s.cfg.fbBase + (row.toNat * 160 + col.toNat * 2)) cell.char,
          .mem (s.cfg.fbBase + (row.toNat * 160 + col.toNat * 2) + 1) cell.attr, .resp ⟨0#32, 0#32⟩] ∧
        t.leftRegion = (s.leftRegion || decide (4000 ≤ row.toNat * 160 + col.toNat * 2)) ∧
        (row.toNat * 160 + col.toNat * 2 < 4000 →
          t.mem.read (s.cfg.fbBase + (row.toNat * 160 + col.toNat * 2)) = some cell.char ∧
          t.mem.read (s.cfg.fbBase + (row.toNat * 160 + col.toNat * 2) + 1) = some cell.attr) ∧
        (∀ a, a ≠ s.cfg.fbBase + (row.toNat * 160 + col.toNat * 2) →
          a ≠ s.cfg.fbBase + (row.toNat * 160 + col.toNat * 2) + 1 → t.mem.read a = s.mem.read a))

/-- R107: the corrected variant rejects exactly when row > 24 or column > 79; every accepted draw answers 0,
writes its two bytes in the region, at an offset in [0, 3998], and leaves the mark as it was. -/
def Obligations.FbDrawWithCorrectedBounds : Prop :=
  ∀ (row col : Half) (cell : Cell) (s : State), s.cfg.policy = .corrected →
    (24 < row.toNat ∨ 79 < col.toNat →
      exec (.fbDraw row col cell) s = .next { s with
        seq := .idle, issued := s.issued ++ [.resp ⟨0xFFFFFFFF#32, 0#32⟩] }) ∧
    (row.toNat ≤ 24 ∧ col.toNat ≤ 79 →
      InGrid row col ∧ row.toNat * 160 + col.toNat * 2 ≤ 3998 ∧
      ∃ t, exec (.fbDraw row col cell) s = .next t ∧
        t.cfg = s.cfg ∧ t.commands = s.commands ∧ t.seq = .idle ∧ t.leftRegion = s.leftRegion ∧
        t.issued = s.issued ++ [.mem (s.cfg.fbBase + (row.toNat * 160 + col.toNat * 2)) cell.char,
          .mem (s.cfg.fbBase + (row.toNat * 160 + col.toNat * 2) + 1) cell.attr, .resp ⟨0#32, 0#32⟩] ∧
        t.mem.read (s.cfg.fbBase + (row.toNat * 160 + col.toNat * 2)) = some cell.char ∧
        t.mem.read (s.cfg.fbBase + (row.toNat * 160 + col.toNat * 2) + 1) = some cell.attr ∧
        (∀ a, a ≠ s.cfg.fbBase + (row.toNat * 160 + col.toNat * 2) →
          a ≠ s.cfg.fbBase + (row.toNat * 160 + col.toNat * 2) + 1 → t.mem.read a = s.mem.read a))

/-- R104: a rejected draw's only trace is its response; the block is ready for the next command. -/
def Obligations.RejectedDrawLeavesOnlyItsResponse : Prop :=
  ∀ (s : State) (w : Word) (rest : List Word) (row col : Half) (cell : Cell),
    s.seq = .idle → s.commands = w :: rest → decode w = .ok (.fbDraw row col cell) →
    gridRejects s.cfg.policy row col = true →
    step s = .next { s with commands := rest, issued := s.issued ++ [.resp ⟨0xFFFFFFFF#32, 0#32⟩] }

/-- R102: the offset of an accepted pair is `row*160 + column*2`, even, at most 4160, and two different
accepted pairs share it only through column 80. -/
def Obligations.OffsetsMeetOnlyThroughColumn80 : Prop :=
  (∀ row col : Half, gridRejects .literal row col = false →
    gridOffset row col = row.toNat * 160 + col.toNat * 2 ∧ gridOffset row col ≤ 4160 ∧
    gridOffset row col % 2 = 0) ∧
  gridRejects .literal 25#16 80#16 = false ∧ gridOffset 25#16 80#16 = 4160 ∧
  (∀ row col row' col' : Half, gridRejects .literal row col = false → gridRejects .literal row' col' = false →
    gridOffset row col = gridOffset row' col' →
    (row = row' ∧ col = col') ∨
    (col.toNat = 80 ∧ col'.toNat = 0 ∧ row'.toNat = row.toNat + 1) ∨
    (col'.toNat = 80 ∧ col.toNat = 0 ∧ row.toNat = row'.toNat + 1)) ∧
  (∀ row row' : Half, row'.toNat = row.toNat + 1 → gridOffset row 80#16 = gridOffset row' 0#16)

/-- R106, and U1 for the third class: where the accepted draws of this hardware land: in their own cell, in the
first cell of the next row, or outside the region, where no modelled byte changes and the run is marked. That
no modelled byte changes there is the model's reading of U1 (log entry 5). -/
def Obligations.AcceptedDrawsFallInThreeClasses : Prop :=
  ∀ (row col : Half) (cell : Cell) (s : State), s.cfg.policy = .literal →
    row.toNat ≤ 25 → col.toNat ≤ 80 →
    ∃ t, exec (.fbDraw row col cell) s = .next t ∧ t.resp = s.resp ++ [⟨0#32, 0#32⟩] ∧
      (row.toNat ≤ 24 ∧ col.toNat ≤ 79 →
        t.buffer ((row.toNat * 80 + col.toNat) * 2) = some cell.char ∧
        t.buffer ((row.toNat * 80 + col.toNat) * 2 + 1) = some cell.attr ∧ t.leftRegion = s.leftRegion) ∧
      (row.toNat ≤ 23 ∧ col.toNat = 80 →
        t.buffer ((row.toNat + 1) * 160) = some cell.char ∧
        t.buffer ((row.toNat + 1) * 160 + 1) = some cell.attr ∧ t.leftRegion = s.leftRegion) ∧
      (row.toNat = 25 ∨ (row.toNat = 24 ∧ col.toNat = 80) →
        t.mem = s.mem ∧ t.leftRegion = true ∧
        ∃ k, k = (if row.toNat = 25 then 2 * col.toNat else 0) ∧ k ≤ 160 ∧
          t.mtrace = s.mtrace ++ [(s.cfg.fbBase + 4000 + k, cell.char), (s.cfg.fbBase + 4000 + k + 1, cell.attr)])

/-! ### The ports (41_port.md, 44_serial.md) -/

/-- R81: PORT.OUT, every port and every value alike. -/
def Obligations.PortOutWritesOnePort : Prop :=
  ∀ (port : Half) (value : Byte) (s : State),
    decode (BitVec.ofNat 64 (0x08 * 2 ^ 56 + port.toNat * 2 ^ 8 + value.toNat)) = .ok (.portOut port value) ∧
    exec (.portOut port value) s = .next { s with
      seq := .idle
      issued := s.issued ++ [.port port value, .resp ⟨0#32, 0#32⟩] }

/-- R111: UART.DIV, three port writes in order. -/
def Obligations.UartDivWritesThreePorts : Prop :=
  ∀ (base divisor : Half) (s : State),
    decode (BitVec.ofNat 64 (0x09 * 2 ^ 56 + base.toNat * 2 ^ 16 + divisor.toNat)) =
      .ok (.uartDiv base divisor) ∧
    exec (.uartDiv base divisor) s = .next { s with
      seq := .idle
      issued := s.issued ++ [.port (BitVec.ofNat 16 (base.toNat + 3)) 0x80#8,
        .port base (BitVec.ofNat 8 (divisor.toNat / 256)), .port base (BitVec.ofNat 8 (divisor.toNat % 256)),
        .resp ⟨0#32, 0#32⟩] }

/-- R113: the line-control port, and where it wraps. -/
def Obligations.LineControlPortWraps : Prop :=
  (∀ base : Half, base.toNat ≤ 0xFFFC → (lineControlPort base).toNat = base.toNat + 3) ∧
  lineControlPort 0xFFFD#16 = 0x0000#16 ∧ lineControlPort 0xFFFE#16 = 0x0001#16 ∧
  lineControlPort 0xFFFF#16 = 0x0002#16 ∧
  (∀ (base divisor : Half) (s : State), ∃ t rest, exec (.uartDiv base divisor) s = .next t ∧
    t.ptrace = s.ptrace ++ (lineControlPort base, 0x80#8) :: rest)

/-- R114: the byte split of the divisor, and that each byte is sent as one datum. -/
def Obligations.DivisorSplitsIntoBytes : Prop :=
  ∀ divisor : Half,
    highByte divisor = divisor.extractLsb' 8 8 ∧ lowByte divisor = divisor.extractLsb' 0 8 ∧
    highByte divisor = narrow 8 (divisor.toNat / 256) ∧ lowByte divisor = narrow 8 divisor.toNat ∧
    divisor.toNat = (highByte divisor).toNat * 256 + (lowByte divisor).toNat ∧
    ∀ (base : Half) (s : State), ∃ t dlab, exec (.uartDiv base divisor) s = .next t ∧
      t.ptrace = s.ptrace ++ [dlab, (base, highByte divisor), (base, lowByte divisor)]

/-- R115, R16: the sequence ends with DLAB commanded: 0x80, with bits 6..0 zero, is the last byte sent to the
line-control port, and stays so through any further steps that write no byte there; the base port was last
sent the divisor's low byte. -/
def Obligations.UartDivLeavesDlabCommanded : Prop :=
  ∀ (base divisor : Half) (s : State),
    ∃ t, exec (.uartDiv base divisor) s = .next t ∧
      dlabCommanded t base = some true ∧ lastPortWrite t.issued (lineControlPort base) = some 0x80#8 ∧
      lastPortWrite t.issued base = some (lowByte divisor) ∧
      (∀ p, p ≠ base → p ≠ lineControlPort base → lastPortWrite t.issued p = lastPortWrite s.issued p) ∧
      ∀ (n : Nat) (u : State), Host.Core.run Sys2Proof.core n t = .next u →
        (∀ v, (lineControlPort base, v) ∉ u.ptrace.drop t.ptrace.length) →
        dlabCommanded u base = some true

/-! ### Statuses, the step and the sequencer (10_state.md, 20_memory.md, 60_exceptions.md) -/

/-- R144, R146: the one response of every word, chosen in the order illegal word, bounds, success, and that a
failure performs no write. -/
def Obligations.StatusOfEveryWord : Prop :=
  ∀ (s : State) (w : Word) (rest : List Word), s.seq = .idle → s.commands = w :: rest →
    ∃ t es r, step s = .next t ∧ t.commands = rest ∧ t.seq = .idle ∧
      t.issued = s.issued ++ es ++ [.resp r] ∧ (∀ r', Event.resp r' ∉ es) ∧
      (legalWord w = false → es = [] ∧ r = ⟨0xFFFFFFFE#32, 0#32⟩) ∧
      (∀ row col cell, decode w = .ok (.fbDraw row col cell) → gridRejects s.cfg.policy row col = true →
        es = [] ∧ r = ⟨0xFFFFFFFF#32, 0#32⟩) ∧
      (∀ i, decode w = .ok i →
        (∀ row col cell, i = .fbDraw row col cell → gridRejects s.cfg.policy row col = false) →
        r.status = 0#32 ∧ r.value.toNat < 2 ^ 16 ∧
        (i.mnemonic ∈ [.cellDraw, .fbDraw, .portOut, .uartDiv] → r.value = 0#32))

/-- R140: no step traps, faults, aborts or refuses, whatever the state, and no command does. -/
def Obligations.EveryStepAnswersNext : Prop :=
  (∀ s : State, ∃ t, step s = .next t) ∧ ∀ (i : Instr) (s : State), ∃ t, exec i s = .next t

/-- A step of an idle block with a command to take latches it and runs exactly what it decodes to (R13, R61). -/
def Obligations.StepRunsDecodedCommand : Prop :=
  ∀ (s : State) (w : Word) (rest : List Word) (i : Instr),
    s.seq = .idle → s.commands = w :: rest → decode w = .ok i →
    step s = exec i { s with commands := rest, seq := .busy w 0 }

/-- An idle block with nothing to take stays as it is (R161, R153). That such a wait is a step of its own is the
model's choice (log entry 9). -/
def Obligations.IdleBlockWaits : Prop :=
  ∀ s : State, s.seq = .idle → s.commands = [] → step s = .next s

/-- R13: the sequencer, write by write. Taking a command makes it Busy(cmd, 0); each write in the rule's order
adds 1 to the step; then it responds and is Idle; and the atomic step is exactly that run, from idle and
from a command in flight. That a step is one whole command, and finishes one in flight, is the model's choice
(log entry 8). -/
def Obligations.SequencerRunIsTheStep : Prop :=
  (∀ (s : State) (w : Word) (rest : List Word), s.seq = .idle → s.commands = w :: rest →
    (∀ j, j ≤ (wordWrites s.cfg w).length →
      (s.microRun (j + 1)).seq = .busy w j ∧ (s.microRun (j + 1)).commands = rest ∧
      (s.microRun (j + 1)).issued = s.issued ++ (wordWrites s.cfg w).take j) ∧
    step s = .next (s.microRun ((wordWrites s.cfg w).length + 2)) ∧
    (s.microRun ((wordWrites s.cfg w).length + 2)).seq = .idle ∧
    (s.microRun ((wordWrites s.cfg w).length + 2)).issued =
      s.issued ++ wordWrites s.cfg w ++ [.resp (wordAnswer s.cfg w)]) ∧
  (∀ (s : State) (w : Word) (k : Nat), s.seq = .busy w k → k ≤ (wordWrites s.cfg w).length →
    step s = .next (s.microRun ((wordWrites s.cfg w).length - k + 1)) ∧
    (s.microRun ((wordWrites s.cfg w).length - k + 1)).commands = s.commands)

/-- R37, R165: between the two writes of a draw the cell in memory holds the new character with the old
attribute. -/
def Obligations.DrawnCellIsTornBetweenItsWrites : Prop :=
  ∀ (s : State) (cell : Cell) (offset : Half) (rest : List Word), s.seq = .idle →
    s.commands = encode (.cellDraw cell offset) :: rest → offset.toNat < 4000 →
    (s.microRun 2).buffer offset.toNat = some cell.char ∧
    (s.microRun 2).buffer (offset.toNat + 1) = s.buffer (offset.toNat + 1) ∧
    (s.microRun 2).resp = s.resp

/-- R173: how many writes each command performs. -/
def Obligations.CommandsPerformFixedNumbersOfWrites : Prop :=
  ∀ (i : Instr) (s : State), ∃ t es, exec i s = .next t ∧ t.issued = s.issued ++ es ∧
    (countMem es, countPort es) =
      match i with
      | .cellNew _ _ _ => (0, 0)
      | .cellDef => (0, 0)
      | .cellSetch _ _ => (0, 0)
      | .cellSetbg _ _ => (0, 0)
      | .cellSetfg _ _ => (0, 0)
      | .cellDraw _ _ => (2, 0)
      | .fbDraw row col _ => if gridRejects s.cfg.policy row col then (0, 0) else (2, 0)
      | .portOut _ _ => (0, 1)
      | .uartDiv _ _ => (0, 3)

/-- R108, R20: nothing of an earlier command is kept: two blocks with the same parameters, whatever else they
hold, perform the same acts for the same word. -/
def Obligations.CommandsDependOnWordAndParametersOnly : Prop :=
  ∀ (w : Word) (s s' : State) (rest rest' : List Word), s.cfg = s'.cfg → s.seq = .idle → s'.seq = .idle →
    s.commands = w :: rest → s'.commands = w :: rest' →
    ∃ t t' es, step s = .next t ∧ step s' = .next t' ∧ t.issued = s.issued ++ es ∧ t'.issued = s'.issued ++ es

/-! ### Reset and invariants -/

/-- R22: what reset leaves, for every value of the parameters, and that it changes none of them. That an unspecified
byte reads as no value is the model's choice (log entry 2); so are that a reset clears the mark whatever stood
before and drops the host's pending words (log entry 15), and that the waiting which follows is a step (log
entry 9). -/
def Obligations.ResetLeavesIdleBlock : Prop :=
  (∀ s : State, s.applyReset.cfg = s.cfg ∧ s.applyReset.seq = .idle ∧ s.applyReset.mtrace = [] ∧
    s.applyReset.ptrace = [] ∧ s.applyReset.resp = [] ∧ s.applyReset.leftRegion = false ∧
    (∀ a, s.applyReset.mem.read a = none) ∧ step s.applyReset = .next s.applyReset) ∧
  State.reset = State.reset.applyReset ∧ State.reset.cfg.policy = .literal

/-- The invariant holds after reset, for every value of the parameters. -/
def Obligations.ResetMeetsInvariant : Prop :=
  State.reset.Inv ∧ ∀ cfg : Config, (State.resetWith cfg).Inv

/-- Every step keeps the invariant: memory canonical and inside the region, the mark exact, every recorded
address one the block can form, every response legal, the sequencer legal. -/
def Obligations.StepKeepsInvariant : Prop :=
  ∀ s t : State, s.Inv → step s = .next t → t.Inv

/-- Every transition of the sequencer keeps the invariant. -/
def Obligations.MicroStepKeepsInvariant : Prop :=
  ∀ s : State, s.Inv → s.microStep.Inv

/-- R15: no run changes the parameters. -/
def Obligations.NoRunChangesTheParameters : Prop :=
  ∀ (n : Nat) (s t : State), Host.Core.run Sys2Proof.core n s = .next t → t.cfg = s.cfg

/-- R39: a byte of the region holds the value of the last write to it in issue order, and the byte it held
before where the run wrote none. That a byte outside the region does not change in the model is the model's
reading of U1 (log entry 5). -/
def Obligations.LastWriteToAByteWins : Prop :=
  ∀ (n : Nat) (s t : State), Host.Core.run Sys2Proof.core n s = .next t →
    ∃ es, t.issued = s.issued ++ es ∧
      (∀ a, inRegion s.cfg a = true → t.mem.read a = (lastMemWrite es a).or (s.mem.read a)) ∧
      (∀ a, inRegion s.cfg a = false → t.mem.read a = s.mem.read a)

/-- U1, R35: the mark is set by the first write outside the region, and never cleared. -/
def Obligations.MarkIsSetByLeavingAndNeverCleared : Prop :=
  ∀ (n : Nat) (s t : State), Host.Core.run Sys2Proof.core n s = .next t →
    ∃ es, t.issued = s.issued ++ es ∧
      t.leftRegion = (s.leftRegion || es.any fun e =>
        match e with
        | .mem a _ => decide (a < s.cfg.fbBase) || decide (s.cfg.fbBase + 4000 ≤ a)
        | .port _ _ => false
        | .resp _ => false)

/-- R33, R44: every address a step writes is the base plus an offset of at most 65536, below
2^ADDR_WIDTH; a grid draw's of at most 4161. -/
def Obligations.AddressesNeverWrap : Prop :=
  (∀ s t : State, step s = .next t → ∃ es, t.issued = s.issued ++ es ∧
    ∀ a v, Event.mem a v ∈ es → s.cfg.fbBase ≤ a ∧ a ≤ s.cfg.fbBase + 65536 ∧ a < 2 ^ s.cfg.addrWidth) ∧
  (∀ (row col : Half) (cell : Cell) (s : State), ∃ t es, exec (.fbDraw row col cell) s = .next t ∧
    t.issued = s.issued ++ es ∧ ∀ a v, Event.mem a v ∈ es → a ≤ s.cfg.fbBase + 4161)

/-- R24, R53, R174: an idle block answers each command the host issues with one response, in order, takes them
one at a time, and is idle at the end. -/
def Obligations.EveryCommandGetsOneResponse : Prop :=
  ∀ (n : Nat) (s : State), s.seq = .idle → n ≤ s.commands.length →
    ∃ t, Host.Core.run Sys2Proof.core n s = .next t ∧ t.seq = .idle ∧ t.commands = s.commands.drop n ∧
      t.resp = s.resp ++ (s.commands.take n).map (wordAnswer s.cfg)

/-- R164, R35: a host whose draws are in-grid, or at a raw offset of at most 3998, never leaves the region;
the rest of the commands cannot. -/
def Obligations.InGridHostsStayInTheRegion : Prop :=
  (∀ (n : Nat) (s t : State), s.seq = .idle → Host.Core.run Sys2Proof.core n s = .next t →
    (∀ w ∈ s.commands.take n, ∀ i, decode w = .ok i →
      (∀ row col cell, i = .fbDraw row col cell → InGrid row col) ∧
      (∀ cell offset, i = .cellDraw cell offset → offset.toNat ≤ 3998)) →
    t.leftRegion = s.leftRegion)

/-! ### The host's side (30_encoding.md R63, 45_helpers.md) -/

/-- R63, R75: an assembler line whose operands fit assembles to the command of its mnemonic with exactly
those operand values, and every command has such a line. R63 gives a quoted character its 8-bit code and does not
say which: that it is the character's Unicode scalar value is the model's choice (log entry 16). That every written
form may stand in every operand position is the model's choice too (log entry 17). -/
def Obligations.AssemblerLosesNothing : Prop :=
  (∀ (vars : HostVars) (l : AsmLine), l.wellFormed vars = true →
    ∃ i, assemble vars l = some i ∧ i.mnemonic = l.mnemonic ∧
      l.operands.mapM (Operand.value vars) = some (operandNumbers i)) ∧
  (∀ (vars : HostVars) (i : Instr),
    (disassemble i).wellFormed vars = true ∧ assemble vars (disassemble i) = some i)

/-- R121: the pseudo-command CELL.PUT. -/
def Obligations.CellPutWritesOneCell : Prop :=
  ∀ (offset : Half) (char fg bg : Byte) (s : State) (rest : List Word),
    s.Ready (cellPut offset char fg bg) rest →
    ∃ t r, Host.Core.run Sys2Proof.core 2 s = .next t ∧ t.seq = .idle ∧ t.commands = rest ∧
      t.issued = s.issued ++ [.resp r, .mem (s.cfg.fbBase + offset.toNat) r.cell.char,
        .mem (s.cfg.fbBase + offset.toNat + 1) r.cell.attr, .resp ⟨0#32, 0#32⟩] ∧
      r.status = 0#32 ∧ r.cell = ⟨char, BitVec.ofNat 8 (fg.toNat % 16 * 16 + bg.toNat % 16)⟩ ∧
      (offset.toNat < 4000 → t.buffer offset.toNat = some char) ∧
      (offset.toNat + 1 < 4000 →
        t.buffer (offset.toNat + 1) = some (BitVec.ofNat 8 (fg.toNat % 16 * 16 + bg.toNat % 16)))

/-- R122: the pseudo-command FB.CLEAR, for every blank cell and both bounds policies: the 4000 writes in ascending
order, and what the region then holds. -/
def Obligations.FbClearFillsTheRegion : Prop :=
  ∀ (p : HelperParams) (s : State) (rest : List Word), s.Ready (fbClear p) rest →
    ∃ t es, Host.Core.run Sys2Proof.core 2001 s = .next t ∧ t.seq = .idle ∧ t.commands = rest ∧
      t.issued = s.issued ++ es ∧ countMem es = 4000 ∧ countPort es = 0 ∧
      (∀ r, Event.resp r ∈ es → r.status = 0#32) ∧ t.leftRegion = s.leftRegion ∧
      t.mtrace = s.mtrace ++ (List.range 2000).flatMap (fun k =>
        [(s.cfg.fbBase + 2 * k, p.clearChar),
         (s.cfg.fbBase + 2 * k + 1, BitVec.ofNat 8 (p.clearFg.toNat % 16 * 16 + p.clearBg.toNat % 16))]) ∧
      (∀ k, k < 2000 → t.buffer (2 * k) = some p.clearChar ∧
        t.buffer (2 * k + 1) = some (BitVec.ofNat 8 (p.clearFg.toNat % 16 * 16 + p.clearBg.toNat % 16))) ∧
      (∀ a, a < s.cfg.fbBase ∨ s.cfg.fbBase + 4000 ≤ a → t.mem.read a = s.mem.read a)

/-- R123: the pseudo-command FB.BANNER inside the grid: one cell per character, at consecutive columns of
one row, and no other byte. -/
def Obligations.FbBannerWritesOneCellPerCharacter : Prop :=
  ∀ (p : HelperParams) (s : State) (rest : List Word), s.Ready (fbBanner p) rest →
    p.bannerRow.toNat ≤ 24 → p.bannerStartCol.toNat + p.bannerText.length ≤ 80 →
    ∃ t es, Host.Core.run Sys2Proof.core (2 * p.bannerText.length) s = .next t ∧ t.seq = .idle ∧
      t.commands = rest ∧ t.issued = s.issued ++ es ∧ countMem es = 2 * p.bannerText.length ∧
      countPort es = 0 ∧ (∀ r, Event.resp r ∈ es → r.status = 0#32) ∧ t.leftRegion = s.leftRegion ∧
      (∀ i ch, p.bannerText[i]? = some ch →
        t.buffer (p.bannerRow.toNat * 160 + (p.bannerStartCol.toNat + i) * 2) = some ch ∧
        t.buffer (p.bannerRow.toNat * 160 + (p.bannerStartCol.toNat + i) * 2 + 1) =
          some (BitVec.ofNat 8 (p.bannerFg.toNat % 16 * 16 + p.bannerBg.toNat % 16))) ∧
      (∀ a, a < s.cfg.fbBase + (p.bannerRow.toNat * 160 + p.bannerStartCol.toNat * 2) ∨
          s.cfg.fbBase + (p.bannerRow.toNat * 160 + (p.bannerStartCol.toNat + p.bannerText.length) * 2) ≤ a →
        t.mem.read a = s.mem.read a)

/-- R123: a loop bound beyond the string's length changes nothing. -/
def Obligations.BannerTruncatesAtTheStringsEnd : Prop :=
  ∀ (p : HelperParams) (bound : Nat), p.bannerText.length ≤ bound →
    fbBannerBounded bound p = fbBanner p ∧ (fbBanner p).length = 2 * p.bannerText.length

/-- R127: a banner whose row is out of range is rejected draw by draw, and the helper goes on. -/
def Obligations.RejectedHelperDrawsDoNotStopIt : Prop :=
  ∀ (p : HelperParams) (s : State) (rest : List Word), s.Ready (fbBanner p) rest →
    25 < p.bannerRow.toNat →
    ∃ t, Host.Core.run Sys2Proof.core (2 * p.bannerText.length) s = .next t ∧ t.seq = .idle ∧
      t.commands = rest ∧ t.mem = s.mem ∧ t.mtrace = s.mtrace ∧ t.ptrace = s.ptrace ∧
      t.resp = s.resp ++ p.bannerText.flatMap fun ch =>
        [⟨0#32, cellValue (newCell ch p.bannerBg p.bannerFg)⟩, ⟨0xFFFFFFFF#32, 0#32⟩]

/-- R124: the pseudo-command FB.CORNERS. -/
def Obligations.FbCornersDrawsTheFourCorners : Prop :=
  ∀ (s : State) (rest : List Word), s.Ready fbCorners rest →
    ∃ t, Host.Core.run Sys2Proof.core 5 s = .next t ∧ t.seq = .idle ∧ t.commands = rest ∧
      t.ptrace = s.ptrace ∧ t.leftRegion = s.leftRegion ∧
      t.mtrace = s.mtrace ++ [0, 158, 3840, 3998].flatMap (fun offset =>
        [(s.cfg.fbBase + offset, 0x54#8), (s.cfg.fbBase + offset + 1, 0x20#8)]) ∧
      t.resp = s.resp ++ ⟨0#32, 0x2054#32⟩ :: List.replicate 4 ⟨0#32, 0#32⟩

/-- R125: the pseudo-command CUR.MOVE. -/
def Obligations.CurMoveWritesTwoPortPairs : Prop :=
  ∀ (p : HelperParams) (pos : Half) (s : State) (rest : List Word), s.Ready (curMove p pos) rest →
    ∃ t, Host.Core.run Sys2Proof.core 4 s = .next t ∧ t.seq = .idle ∧ t.commands = rest ∧
      t.mem = s.mem ∧ t.mtrace = s.mtrace ∧
      t.ptrace = s.ptrace ++
        [(p.cursorCmdPort, p.cursorSelHigh), (p.cursorDataPort, pos.extractLsb' 8 8),
         (p.cursorCmdPort, p.cursorSelLow), (p.cursorDataPort, pos.extractLsb' 0 8)] ∧
      t.resp = s.resp ++ List.replicate 4 ⟨0#32, 0#32⟩

/-- R63, R24: a host that keeps results under names. The expansions of R121 and R124, written with a name for
the cell, do exactly what the command sequences do; and a cell built, recoloured twice and drawn by name
arrives in its place of the grid. How the host keeps names is the model's choice (log entries 12 and 14). -/
def Obligations.NamedResultsCarryCells : Prop :=
  (∀ (h : HostNames) (offset : Half) (char fg bg : Byte) (s : State), s.seq = .idle → s.commands = [] →
    ∃ h' t, hostRun h (cellPutLines offset char fg bg) s = some (h', t) ∧
      Host.Core.run Sys2Proof.core 2 { s with commands := commandWords (cellPut offset char fg bg) } = .next t) ∧
  (∀ (h : HostNames) (s : State), s.seq = .idle → s.commands = [] →
    ∃ h' t, hostRun h fbCornersLines s = some (h', t) ∧
      Host.Core.run Sys2Proof.core 5 { s with commands := commandWords fbCorners } = .next t) ∧
  (∀ (h : HostNames) (char bg fg bg' fg' : Byte) (row col : Half) (s : State), s.seq = .idle →
    row.toNat ≤ 24 → col.toNat ≤ 79 →
    ∃ h' t, hostRun h
        [⟨some "c0", ⟨.cellNew, [.num char.toNat, .num bg.toNat, .num fg.toNat]⟩, none⟩,
         ⟨some "c1", ⟨.cellSetbg, [.name "c0", .num bg'.toNat]⟩, none⟩,
         ⟨some "c2", ⟨.cellSetfg, [.name "c1", .num fg'.toNat]⟩, none⟩,
         ⟨none, ⟨.fbDraw, [.num row.toNat, .num col.toNat, .name "c2"]⟩, some "st"⟩] s = some (h', t) ∧
      t.seq = .idle ∧ t.commands = s.commands ∧ h'.statuses = ("st", 0#32) :: h.statuses ∧
      t.buffer ((row.toNat * 80 + col.toNat) * 2) = some char ∧
      t.buffer ((row.toNat * 80 + col.toNat) * 2 + 1) =
        some (BitVec.ofNat 8 (fg'.toNat % 16 * 16 + bg'.toNat % 16)))
end

