-- ==== Sys2Proof/Laws/Decode.lean ====
section
/-! SUPPORT. Reading back a field put into a word, and what the decoder answers. -/

namespace Sys2Proof

/-- Reading a field distributes over the or of two words. -/
theorem extract_or (x y : Word) (start len : Nat) :
    (x ||| y).extractLsb' start len = x.extractLsb' start len ||| y.extractLsb' start len :=
  BitVec.extractLsb'_or

/-- A field reads back where it was put. -/
theorem extract_place_same {start width : Nat} (v : BitVec width) (h : start + width ≤ 64) :
    (place start v).extractLsb' start width = v := by
  apply BitVec.eq_of_getLsbD_eq
  intro i hi
  simp only [place, BitVec.getLsbD_extractLsb', BitVec.getLsbD_shiftLeft, BitVec.getLsbD_setWidth, hi,
    decide_true, Bool.true_and]
  have h1 : start + i < 64 := by omega
  have h2 : ¬ start + i < start := by omega
  simp [h1, h2, show i < 64 by omega]

/-- A field put elsewhere reads as 0 here. -/
theorem extract_place_apart {start width : Nat} (v : BitVec width) {start' len : Nat}
    (h : start + width ≤ start' ∨ start' + len ≤ start) :
    (place start v).extractLsb' start' len = 0#len := by
  apply BitVec.eq_of_getLsbD_eq
  intro i hi
  simp only [place, BitVec.getLsbD_extractLsb', BitVec.getLsbD_shiftLeft, BitVec.getLsbD_setWidth, hi,
    decide_true, Bool.true_and, BitVec.getLsbD_zero]
  rcases h with h | h
  · have : v.getLsbD (start' + i - start) = false := BitVec.getLsbD_of_ge _ _ (by omega)
    simp [this]
  · simp [show start' + i < start by omega]

/-- The low byte and the high byte of a packed cell. -/
@[simp] theorem Cell.ofHalf_toHalf (c : Cell) : Cell.ofHalf c.toHalf = c := by
  cases c with
  | mk char attr =>
    simp only [Cell.ofHalf, Cell.toHalf, Cell.mk.injEq]
    constructor <;> apply BitVec.eq_of_getLsbD_eq <;> intro i hi <;>
      rw [BitVec.getLsbD_extractLsb', BitVec.getLsbD_append] <;> simp [hi]

/-- Every 16-bit field is some cell's, packed. -/
@[simp] theorem Cell.toHalf_ofHalf (h : Half) : (Cell.ofHalf h).toHalf = h := by
  apply BitVec.eq_of_getLsbD_eq
  intro i hi
  simp only [Cell.ofHalf, Cell.toHalf, BitVec.getLsbD_append, BitVec.getLsbD_extractLsb']
  by_cases h8 : i < 8
  · simp [h8]
  · simp [h8, show i - 8 < 8 by omega, show 8 + (i - 8) = i by omega]

/-- The decoder's answer, once the opcode is known. -/
theorem decode_of_mnemonic {w : Word} {m : Mnemonic} (h : mnemonicOf (opcodeOf w) = some m) :
    decode w = if m.format.reservedClear w then .ok (m.extract w) else .error (.reservedBitSet m) := by
  rw [decode, h]

/-- A word decodes to an instruction exactly when its opcode is assigned and its reserved bits are clear. -/
theorem decode_eq_ok_iff (w : Word) (i : Instr) :
    decode w = .ok i ↔
      ∃ m, mnemonicOf (opcodeOf w) = some m ∧ m.format.reservedClear w = true ∧ m.extract w = i := by
  unfold decode
  cases mnemonicOf (opcodeOf w) with
  | none => simp
  | some m => by_cases h : m.format.reservedClear w <;> simp [h]

end Sys2Proof
end

