-- ==== Sys2Proof/Laws/Memory.lean ====
section
/-! SUPPORT. The laws of the byte store: a read after a write, and the canonical form. -/

namespace Sys2Proof.Machine

@[simp] theorem Memory.read_nil (a : Nat) : Memory.read [] a = none := rfl

/-- A write changes what its own address reads as, and nothing else. -/
theorem Memory.read_write (m : Memory) (a b : Nat) (v : Byte) :
    (m.write a v).read b = if a = b then some v else m.read b := by
  induction m with
  | nil => simp [Memory.write, Memory.read]
  | cons c rest ih =>
    by_cases h1 : a < c.1
    · simp [Memory.write, h1, Memory.read]
    · by_cases h2 : a = c.1
      · subst h2; by_cases h3 : c.1 = b <;> simp [Memory.write, Memory.read, h3]
      · by_cases h3 : c.1 = b
        · subst h3; simp [Memory.write, h1, h2, Memory.read]
        · simp [Memory.write, h1, h2, Memory.read, h3, ih]

@[simp] theorem Memory.read_write_same (m : Memory) (a : Nat) (v : Byte) :
    (m.write a v).read a = some v := by
  simp [Memory.read_write]

theorem Memory.read_write_other (m : Memory) {a b : Nat} (v : Byte) (h : a ≠ b) :
    (m.write a v).read b = m.read b := by
  simp [Memory.read_write, h]

/-- The cells listed after a write: the written one, and cells that were listed before. -/
theorem Memory.mem_write {m : Memory} {a : Nat} {v : Byte} {c : Host.Cell} (h : c ∈ m.write a v) :
    c = (a, v) ∨ c ∈ m := by
  induction m with
  | nil => exact .inl (by simpa [Memory.write] using h)
  | cons d rest ih =>
    simp only [Memory.write] at h
    split at h
    · simpa using h
    · split at h
      · rcases List.mem_cons.1 h with h | h
        · exact .inl h
        · exact .inr (List.mem_cons_of_mem _ h)
      · rcases List.mem_cons.1 h with h | h
        · exact .inr (h ▸ List.mem_cons_self)
        · exact (ih h).imp_right (List.mem_cons_of_mem _)

/-- A write keeps the canonical form. -/
theorem Memory.write_wf {m : Memory} (h : m.wf) (a : Nat) (v : Byte) : (m.write a v).wf := by
  induction m with
  | nil => simp [Memory.write, Memory.wf]
  | cons d rest ih =>
    obtain ⟨hd, hrest⟩ := List.pairwise_cons.1 h
    simp only [Memory.write]
    split
    next hlt =>
      refine List.pairwise_cons.2 ⟨?_, h⟩
      rintro c hc
      rcases List.mem_cons.1 hc with rfl | hc
      · exact hlt
      · exact Nat.lt_trans hlt (hd c hc)
    next hge =>
      split
      next heq =>
        exact List.pairwise_cons.2 ⟨fun c hc => by simpa [heq] using hd c hc, hrest⟩
      next hne =>
        refine List.pairwise_cons.2 ⟨fun c hc => ?_, ih hrest⟩
        rcases Memory.mem_write hc with rfl | hc
        · exact Nat.lt_of_le_of_ne (Nat.le_of_not_lt hge) (Ne.symm hne)
        · exact hd c hc

/-- Two memories in canonical form that read alike are equal data. -/
theorem Memory.ext_of_wf {m n : Memory} (hm : m.wf) (hn : n.wf) (h : ∀ a, m.read a = n.read a) :
    m = n := by
  have below : ∀ (p : Memory) (a : Nat), (∀ c ∈ p, a < c.1) → p.read a = none := by
    intro p a hp
    induction p with
    | nil => rfl
    | cons c rest ih =>
      have h1 := hp c List.mem_cons_self
      rw [Memory.read, if_neg (by omega)]
      exact ih fun d hd => hp d (List.mem_cons_of_mem _ hd)
  induction m generalizing n with
  | nil =>
    cases n with
    | nil => rfl
    | cons d ds => simpa [Memory.read] using h d.1
  | cons c cs ih =>
    cases n with
    | nil => simpa [Memory.read] using h c.1
    | cons d ds =>
      obtain ⟨hc, hcs⟩ := List.pairwise_cons.1 hm
      obtain ⟨hd, hds⟩ := List.pairwise_cons.1 hn
      have key : c.1 = d.1 := by
        rcases Nat.lt_trichotomy c.1 d.1 with hlt | heq | hgt
        · have := h c.1
          rw [Memory.read, if_pos rfl, below (d :: ds) c.1 (by
            intro e he
            rcases List.mem_cons.1 he with rfl | he
            · exact hlt
            · exact Nat.lt_trans hlt (hd e he))] at this
          simp at this
        · exact heq
        · have := h d.1
          rw [below (c :: cs) d.1 (by
            intro e he
            rcases List.mem_cons.1 he with rfl | he
            · exact hgt
            · exact Nat.lt_trans hgt (hc e he)), Memory.read, if_pos rfl] at this
          simp at this
      have val : c.2 = d.2 := by
        have := h c.1
        rw [Memory.read, if_pos rfl, Memory.read, if_pos key.symm] at this
        simpa using this
      have tails : cs = ds := ih hcs hds fun a => by
        have ha := h a
        by_cases hca : c.1 = a
        · rw [below cs a fun e he => hca ▸ hc e he, below ds a fun e he => by
            have := hd e he; omega]
        · rwa [Memory.read, if_neg hca, Memory.read, if_neg (by omega)] at ha
      rw [tails, Prod.ext key val]

end Sys2Proof.Machine
end

