-- ==== Sys2Proof/Laws/State.lean ====
section
/-! SUPPORT. One lemma per field per update of the sequencer's primitives, so that no later proof unfolds
a record update. -/

/-- Every literal block the constraint of R5 allows is some `literalAt` (log entry 1). -/
theorem Sys2Proof.Config.literalAt_onto (c : Sys2Proof.Config) (h : c.policy = .literal) :
    Sys2Proof.Config.literalAt c.fbBase (c.addrWidth - 17) = c := by
  obtain ⟨base, width, policy, fits⟩ := c
  subst h
  have hw : 17 ≤ width := by
    by_contra hlt
    have : 2 ^ width ≤ 2 ^ 16 := Nat.pow_le_pow_right (by decide) (by omega)
    omega
  simp only [Sys2Proof.Config.literalAt, Sys2Proof.Config.mk.injEq, and_true]
  rw [show 17 + (width - 17) = width by omega]
  exact ⟨Nat.mod_eq_of_lt (by omega), rfl⟩

namespace Sys2Proof.Machine

/-! ### memWrite -/
@[simp] theorem State.memWrite_cfg (s : State) (a : Nat) (v : Byte) : (s.memWrite a v).cfg = s.cfg := rfl
@[simp] theorem State.memWrite_commands (s : State) (a : Nat) (v : Byte) :
    (s.memWrite a v).commands = s.commands := rfl
@[simp] theorem State.memWrite_seq (s : State) (a : Nat) (v : Byte) :
    (s.memWrite a v).seq = s.seq.advance := rfl
@[simp] theorem State.memWrite_mem (s : State) (a : Nat) (v : Byte) :
    (s.memWrite a v).mem = if inRegion s.cfg a then s.mem.write a v else s.mem := rfl
@[simp] theorem State.memWrite_issued (s : State) (a : Nat) (v : Byte) :
    (s.memWrite a v).issued = s.issued ++ [.mem a v] := rfl
@[simp] theorem State.memWrite_leftRegion (s : State) (a : Nat) (v : Byte) :
    (s.memWrite a v).leftRegion = (s.leftRegion || !inRegion s.cfg a) := rfl

/-! ### portWrite -/
@[simp] theorem State.portWrite_cfg (s : State) (p : Half) (v : Byte) : (s.portWrite p v).cfg = s.cfg := rfl
@[simp] theorem State.portWrite_commands (s : State) (p : Half) (v : Byte) :
    (s.portWrite p v).commands = s.commands := rfl
@[simp] theorem State.portWrite_seq (s : State) (p : Half) (v : Byte) :
    (s.portWrite p v).seq = s.seq.advance := rfl
@[simp] theorem State.portWrite_mem (s : State) (p : Half) (v : Byte) : (s.portWrite p v).mem = s.mem := rfl
@[simp] theorem State.portWrite_issued (s : State) (p : Half) (v : Byte) :
    (s.portWrite p v).issued = s.issued ++ [.port p v] := rfl
@[simp] theorem State.portWrite_leftRegion (s : State) (p : Half) (v : Byte) :
    (s.portWrite p v).leftRegion = s.leftRegion := rfl

/-! ### respond -/
@[simp] theorem State.respond_cfg (s : State) (st v : BitVec 32) : (s.respond st v).cfg = s.cfg := rfl
@[simp] theorem State.respond_commands (s : State) (st v : BitVec 32) :
    (s.respond st v).commands = s.commands := rfl
@[simp] theorem State.respond_seq (s : State) (st v : BitVec 32) : (s.respond st v).seq = .idle := rfl
@[simp] theorem State.respond_mem (s : State) (st v : BitVec 32) : (s.respond st v).mem = s.mem := rfl
@[simp] theorem State.respond_issued (s : State) (st v : BitVec 32) :
    (s.respond st v).issued = s.issued ++ [.resp ⟨st, v⟩] := rfl
@[simp] theorem State.respond_leftRegion (s : State) (st v : BitVec 32) :
    (s.respond st v).leftRegion = s.leftRegion := rfl

/-! ### takeCommand -/
@[simp] theorem State.takeCommand_cfg (s : State) (w : Word) (r : List Word) :
    (s.takeCommand w r).cfg = s.cfg := rfl
@[simp] theorem State.takeCommand_commands (s : State) (w : Word) (r : List Word) :
    (s.takeCommand w r).commands = r := rfl
@[simp] theorem State.takeCommand_seq (s : State) (w : Word) (r : List Word) :
    (s.takeCommand w r).seq = .busy w 0 := rfl
@[simp] theorem State.takeCommand_mem (s : State) (w : Word) (r : List Word) :
    (s.takeCommand w r).mem = s.mem := rfl
@[simp] theorem State.takeCommand_issued (s : State) (w : Word) (r : List Word) :
    (s.takeCommand w r).issued = s.issued := rfl
@[simp] theorem State.takeCommand_leftRegion (s : State) (w : Word) (r : List Word) :
    (s.takeCommand w r).leftRegion = s.leftRegion := rfl

/-! ### resetWith -/
@[simp] theorem State.resetWith_cfg (cfg : Config) : (State.resetWith cfg).cfg = cfg := rfl
@[simp] theorem State.resetWith_commands (cfg : Config) : (State.resetWith cfg).commands = [] := rfl
@[simp] theorem State.resetWith_seq (cfg : Config) : (State.resetWith cfg).seq = .idle := rfl
@[simp] theorem State.resetWith_mem (cfg : Config) : (State.resetWith cfg).mem = [] := rfl
@[simp] theorem State.resetWith_issued (cfg : Config) : (State.resetWith cfg).issued = [] := rfl
@[simp] theorem State.resetWith_leftRegion (cfg : Config) : (State.resetWith cfg).leftRegion = false := rfl

/-! ### The sequencer's counter -/
@[simp] theorem Seq.advance_idle : Seq.idle.advance = .idle := rfl
@[simp] theorem Seq.advance_busy (w : Word) (k : Nat) : (Seq.busy w k).advance = .busy w (k + 1) := rfl

/-! ### perform -/
@[simp] theorem State.perform_mem (s : State) (a : Nat) (v : Byte) :
    s.perform (.mem a v) = s.memWrite a v := rfl
@[simp] theorem State.perform_port (s : State) (p : Half) (v : Byte) :
    s.perform (.port p v) = s.portWrite p v := rfl
@[simp] theorem State.perform_resp (s : State) (r : Response) :
    s.perform (.resp r) = s.respond r.status r.value := rfl

/-- Whatever act is performed, the parameters stay. -/
@[simp] theorem State.perform_cfg (s : State) (e : Event) : (s.perform e).cfg = s.cfg := by
  cases e <;> rfl

/-- Whatever act is performed, the host's stream stays. -/
@[simp] theorem State.perform_commands (s : State) (e : Event) : (s.perform e).commands = s.commands := by
  cases e <;> rfl

/-- Whatever act is performed, exactly it is recorded. -/
@[simp] theorem State.perform_issued (s : State) (e : Event) :
    (s.perform e).issued = s.issued ++ [e] := by
  cases e <;> rfl

/-- The mark is set by an act that leaves the region, and never cleared. -/
@[simp] theorem State.perform_leftRegion (s : State) (e : Event) :
    (s.perform e).leftRegion = (s.leftRegion || e.leavesRegion s.cfg) := by
  cases e <;> simp [Event.leavesRegion]

end Sys2Proof.Machine
end

