-- ==== Sys2Proof/Laws/Ops.lean ====
section
/-! SUPPORT. What each shared operation does, said once: the views of R23 under an append, what a byte
reads as after a write primitive and after the cell writer, and the invariant's parts they keep. -/

namespace Sys2Proof.Machine

/-- Whatever is performed next, an address of the region reads as the byte written there, and every
other address as before; outside the region nothing is modelled (U1). -/
theorem State.read_memWrite (s : State) (a b : Nat) (v : Byte) :
    (s.memWrite a v).mem.read b =
      if a = b ∧ inRegion s.cfg a = true then some v else s.mem.read b := by
  by_cases h : inRegion s.cfg a <;> simp [h, Memory.read_write]

/-- What an address reads as after the cell writer. -/
theorem State.read_drawCell (s : State) (cell : Cell) (offset b : Nat) :
    (s.drawCell cell offset).mem.read b =
      if fbAddr s.cfg (offset + 1) = b ∧ inRegion s.cfg b = true then some cell.attr
      else if fbAddr s.cfg offset = b ∧ inRegion s.cfg b = true then some cell.char
      else s.mem.read b := by
  simp only [State.drawCell, State.read_memWrite, State.memWrite_cfg]
  by_cases h1 : fbAddr s.cfg (offset + 1) = b
  · subst h1
    simp [fbAddr]
  · by_cases h2 : fbAddr s.cfg offset = b
    · subst h2; simp [h1]
    · simp [h1, h2]

@[simp] theorem State.drawCell_cfg (s : State) (cell : Cell) (offset : Nat) :
    (s.drawCell cell offset).cfg = s.cfg := rfl
@[simp] theorem State.drawCell_commands (s : State) (cell : Cell) (offset : Nat) :
    (s.drawCell cell offset).commands = s.commands := rfl
@[simp] theorem State.drawCell_seq (s : State) (cell : Cell) (offset : Nat) :
    (s.drawCell cell offset).seq = s.seq.advance.advance := rfl
@[simp] theorem State.drawCell_issued (s : State) (cell : Cell) (offset : Nat) :
    (s.drawCell cell offset).issued =
      s.issued ++ [.mem (fbAddr s.cfg offset) cell.char, .mem (fbAddr s.cfg (offset + 1)) cell.attr] := by
  simp [State.drawCell]
@[simp] theorem State.drawCell_leftRegion (s : State) (cell : Cell) (offset : Nat) :
    (s.drawCell cell offset).leftRegion =
      (s.leftRegion || !inRegion s.cfg (fbAddr s.cfg offset) || !inRegion s.cfg (fbAddr s.cfg (offset + 1))) :=
  rfl

/-- FB_LEN as a number (R5). -/
@[simp] theorem fbLen_eq : fbLen = 4000 := by decide

/-- The offset decides: `buffer[offset]` lies in the region exactly when `offset < 4000` (R35). -/
@[simp] theorem inRegion_fbAddr (cfg : Config) (offset : Nat) :
    inRegion cfg (fbAddr cfg offset) = decide (offset < 4000) := by
  simp [inRegion, fbAddr]

/-- The region's bounds as numbers (R18, R44). -/
theorem inRegion_iff (cfg : Config) (a : Nat) :
    inRegion cfg a = true ↔ cfg.fbBase ≤ a ∧ a < cfg.fbBase + 4000 := by
  simp [inRegion]

/-- An address beyond the region is not in it. -/
theorem inRegion_beyond {cfg : Config} {a : Nat} (h : cfg.fbBase + 4000 ≤ a) : inRegion cfg a = false := by
  rw [Bool.eq_false_iff, Ne, inRegion_iff]
  omega

/-- Different offsets have different addresses (R33: nothing wraps). -/
@[simp] theorem fbAddr_inj (cfg : Config) (i j : Nat) : fbAddr cfg i = fbAddr cfg j ↔ i = j := by
  simp [fbAddr]

/-- What a byte of the buffer reads as after the cell writer. -/
theorem State.buffer_drawCell (s : State) (cell : Cell) (offset i : Nat) :
    (s.drawCell cell offset).buffer i =
      if offset + 1 = i ∧ i < 4000 then some cell.attr
      else if offset = i ∧ i < 4000 then some cell.char
      else s.buffer i := by
  simp [State.buffer, State.read_drawCell]

/-- A response changes no byte of the buffer. -/
@[simp] theorem State.buffer_respond (s : State) (st v : BitVec 32) (i : Nat) :
    (s.respond st v).buffer i = s.buffer i := rfl

/-- Two different offsets apart, the cell writer changes no byte of memory. -/
theorem State.read_drawCell_other (s : State) (cell : Cell) {offset a : Nat}
    (h1 : a ≠ fbAddr s.cfg offset) (h2 : a ≠ fbAddr s.cfg (offset + 1)) :
    (s.drawCell cell offset).mem.read a = s.mem.read a := by
  rw [State.read_drawCell, if_neg (fun h => h2 h.1.symm), if_neg (fun h => h1 h.1.symm)]

/-- The cell writer changes no byte beyond the region (U1). -/
theorem State.read_drawCell_beyond (s : State) (cell : Cell) (offset : Nat) {a : Nat}
    (h : inRegion s.cfg a = false) : (s.drawCell cell offset).mem.read a = s.mem.read a := by
  simp [State.read_drawCell, h]

/-- Performing an act keeps the canonical form of memory. -/
theorem State.perform_wf {s : State} (h : s.mem.wf) (e : Event) : (s.perform e).mem.wf := by
  cases e with
  | mem a v =>
    by_cases hr : inRegion s.cfg a
    · simpa [hr] using Memory.write_wf h a v
    · simpa [hr] using h
  | port p v => simpa using h
  | resp r => simpa using h

/-- Performing an act lists no byte outside the region. -/
theorem State.perform_memInRegion {s : State} (h : ∀ c ∈ s.mem, inRegion s.cfg c.1 = true) (e : Event) :
    ∀ c ∈ (s.perform e).mem, inRegion s.cfg c.1 = true := by
  intro c hc
  cases e with
  | mem a v =>
    by_cases hr : inRegion s.cfg a
    · rcases Memory.mem_write (by simpa [hr] using hc) with rfl | hc
      · exact hr
      · exact h c hc
    · exact h c (by simpa [hr] using hc)
  | port p v => exact h c (by simpa using hc)
  | resp r => exact h c (by simpa using hc)

/-! ### The views of R23, for a state whose records are those of another with some acts after them -/

theorem State.mtrace_of_issued {s t : State} {es : List Event} (h : t.issued = s.issued ++ es) :
    t.mtrace = s.mtrace ++ es.filterMap Event.memPart := by
  simp [State.mtrace, h]

theorem State.ptrace_of_issued {s t : State} {es : List Event} (h : t.issued = s.issued ++ es) :
    t.ptrace = s.ptrace ++ es.filterMap Event.portPart := by
  simp [State.ptrace, h]

theorem State.resp_of_issued {s t : State} {es : List Event} (h : t.issued = s.issued ++ es) :
    t.resp = s.resp ++ es.filterMap Event.respPart := by
  simp [State.resp, h]

@[simp] theorem Event.memPart_mem (a : Nat) (v : Byte) : (Event.mem a v).memPart = some (a, v) := rfl
@[simp] theorem Event.memPart_port (p : Half) (v : Byte) : (Event.port p v).memPart = none := rfl
@[simp] theorem Event.memPart_resp (r : Response) : (Event.resp r).memPart = none := rfl
@[simp] theorem Event.portPart_mem (a : Nat) (v : Byte) : (Event.mem a v).portPart = none := rfl
@[simp] theorem Event.portPart_port (p : Half) (v : Byte) : (Event.port p v).portPart = some (p, v) := rfl
@[simp] theorem Event.portPart_resp (r : Response) : (Event.resp r).portPart = none := rfl
@[simp] theorem Event.respPart_mem (a : Nat) (v : Byte) : (Event.mem a v).respPart = none := rfl
@[simp] theorem Event.respPart_port (p : Half) (v : Byte) : (Event.port p v).respPart = none := rfl
@[simp] theorem Event.respPart_resp (r : Response) : (Event.resp r).respPart = some r := rfl
@[simp] theorem Event.leavesRegion_mem (cfg : Config) (a : Nat) (v : Byte) :
    (Event.mem a v).leavesRegion cfg = !inRegion cfg a := rfl
@[simp] theorem Event.leavesRegion_port (cfg : Config) (p : Half) (v : Byte) :
    (Event.port p v).leavesRegion cfg = false := rfl
@[simp] theorem Event.leavesRegion_resp (cfg : Config) (r : Response) :
    (Event.resp r).leavesRegion cfg = false := rfl

end Sys2Proof.Machine
end

