-- ==== Sys2Proof/Laws/Exec.lean ====
section
/-! SUPPORT. What executing a command does, said once: the two outcomes of a grid draw, what carrying out a
list of acts does, and that every command carries out its rule's writes and then responds. -/

namespace Sys2Proof.Machine

/-- A rejected grid draw fails with ST_RANGE (R103). -/
theorem execFbDraw_rejected {row col : Half} {cell : Cell} {s : State}
    (h : gridRejects s.cfg.policy row col = true) : execFbDraw row col cell s = .next (s.fail stRange) := by
  simp [execFbDraw, h]

/-- An accepted grid draw is the cell writer at the pair's offset (R103). -/
theorem execFbDraw_accepted {row col : Half} {cell : Cell} {s : State}
    (h : gridRejects s.cfg.policy row col = false) :
    execFbDraw row col cell s = .next ((s.drawCell cell (gridOffset row col)).respond statusOk 0#32) := by
  simp [execFbDraw, h]

/-- Carrying out a list of acts keeps the parameters. -/
@[simp] theorem foldl_perform_cfg (es : List Event) (s : State) : (es.foldl State.perform s).cfg = s.cfg := by
  induction es generalizing s with
  | nil => rfl
  | cons e es ih => simp [ih]

/-- Carrying out a list of acts keeps the host's stream. -/
@[simp] theorem foldl_perform_commands (es : List Event) (s : State) :
    (es.foldl State.perform s).commands = s.commands := by
  induction es generalizing s with
  | nil => rfl
  | cons e es ih => simp [ih]

/-- Carrying out a list of acts records exactly them, in order. -/
@[simp] theorem foldl_perform_issued (es : List Event) (s : State) :
    (es.foldl State.perform s).issued = s.issued ++ es := by
  induction es generalizing s with
  | nil => simp
  | cons e es ih => simp [ih]

/-- Carrying out a list of acts sets the mark exactly when one of them leaves the region. -/
@[simp] theorem foldl_perform_leftRegion (es : List Event) (s : State) :
    (es.foldl State.perform s).leftRegion = (s.leftRegion || es.any (Event.leavesRegion s.cfg)) := by
  induction es generalizing s with
  | nil => simp
  | cons e es ih => simp [ih, Bool.or_assoc]

/-- Carrying out a list of acts keeps the canonical form of memory. -/
theorem foldl_perform_wf (es : List Event) {s : State} (h : s.mem.wf) :
    (es.foldl State.perform s).mem.wf := by
  induction es generalizing s with
  | nil => exact h
  | cons e es ih => exact ih (State.perform_wf h e)

/-- Executing a command is carrying out the writes its rule lists, and responding. -/
theorem exec_eq_writes (i : Instr) (s : State) :
    exec i s = .next (((instrWrites s.cfg i).foldl State.perform s).respond
      (instrAnswer s.cfg i).status (instrAnswer s.cfg i).value) := by
  cases i
  case fbDraw row col cell =>
    cases h : gridRejects s.cfg.policy row col
    · simp [exec, execFbDraw_accepted h, instrWrites, instrAnswer, h, cellWrites, State.drawCell]
    · simp [exec, execFbDraw_rejected h, instrWrites, instrAnswer, h, State.fail]
  all_goals rfl

/-- No write of a command is a response. -/
theorem resp_not_mem_wordWrites (cfg : Config) (w : Word) (r : Response) :
    Event.resp r ∉ wordWrites cfg w := by
  unfold wordWrites
  split
  next i _ =>
    cases i <;> simp [instrWrites, cellWrites]
  next => simp

end Sys2Proof.Machine
end

