-- ==== Sys2Proof/Laws/Step.lean ====
section
/-! SUPPORT. What a step can do, said once, and runs of the machine step by step. -/

namespace Sys2Proof.Machine

/-- The step of an idle block with nothing to take. -/
theorem step_wait {s : State} (h : s.seq = .idle) (hc : s.commands = []) : step s = .next s := by
  simp [step, h, hc]

/-- The step of an idle block whose next word is a command. -/
theorem step_command {s : State} {w : Word} {rest : List Word} {i : Instr} (h : s.seq = .idle)
    (hc : s.commands = w :: rest) (hd : decode w = .ok i) : step s = exec i (s.takeCommand w rest) := by
  simp [step, h, hc, hd]

/-- The step of an idle block whose next word is illegal. -/
theorem step_illegal {s : State} {w : Word} {rest : List Word} {r : IllegalWord} (h : s.seq = .idle)
    (hc : s.commands = w :: rest) (hd : decode w = .error r) :
    step s = .next (s.takeCommand w rest).rejectWord := by
  simp [step, h, hc, hd]

/-- The step of a block with a command in flight. -/
theorem step_busy {s : State} {w : Word} {k : Nat} (h : s.seq = .busy w k) :
    step s = .next (s.finishCommand w k) := by
  simp [step, h]

/-- An idle block with a word to take latches it and carries it to its response, legal or not. -/
theorem step_take {s : State} {w : Word} {rest : List Word} (h : s.seq = .idle)
    (hc : s.commands = w :: rest) : step s = .next ((s.takeCommand w rest).finishCommand w 0) := by
  cases hd : decode w with
  | ok i =>
    rw [step_command h hc hd, exec_eq_writes]
    simp [State.finishCommand, wordWrites, wordAnswer, hd]
  | error e =>
    rw [step_illegal h hc hd]
    simp [State.finishCommand, wordWrites, wordAnswer, hd, State.rejectWord, State.fail]

/-- Everything a step can do: nothing, take a word and carry it to its response, or carry the command in
flight to its response. -/
theorem step_cases {s t : State} (h : step s = .next t) :
    (s.seq = .idle ∧ s.commands = [] ∧ t = s) ∨
    (∃ w rest, s.seq = .idle ∧ s.commands = w :: rest ∧ t = (s.takeCommand w rest).finishCommand w 0) ∨
    (∃ w k, s.seq = .busy w k ∧ t = s.finishCommand w k) := by
  cases hs : s.seq with
  | busy w k =>
    rw [step_busy hs] at h
    cases h
    exact .inr (.inr ⟨w, k, rfl, rfl⟩)
  | idle =>
    cases hc : s.commands with
    | nil =>
      rw [step_wait hs hc] at h
      cases h
      exact .inl ⟨rfl, rfl, rfl⟩
    | cons w rest =>
      rw [step_take hs hc] at h
      cases h
      exact .inr (.inl ⟨w, rest, rfl, rfl, rfl⟩)

/-! ### Carrying a command to its response -/
@[simp] theorem State.finishCommand_cfg (s : State) (w : Word) (k : Nat) :
    (s.finishCommand w k).cfg = s.cfg := by
  simp [State.finishCommand]
@[simp] theorem State.finishCommand_commands (s : State) (w : Word) (k : Nat) :
    (s.finishCommand w k).commands = s.commands := by
  simp [State.finishCommand]
@[simp] theorem State.finishCommand_seq (s : State) (w : Word) (k : Nat) :
    (s.finishCommand w k).seq = .idle := rfl
@[simp] theorem State.finishCommand_issued (s : State) (w : Word) (k : Nat) :
    (s.finishCommand w k).issued =
      s.issued ++ ((wordWrites s.cfg w).drop k ++ [.resp (wordAnswer s.cfg w)]) := by
  simp [State.finishCommand]
@[simp] theorem State.finishCommand_leftRegion (s : State) (w : Word) (k : Nat) :
    (s.finishCommand w k).leftRegion =
      (s.leftRegion || ((wordWrites s.cfg w).drop k).any (Event.leavesRegion s.cfg)) := by
  simp [State.finishCommand]

/-! ### Runs -/

/-- A run of one step more. -/
theorem run_succ {n : Nat} {s u : State} (h : step s = .next u) :
    Host.Core.run Sys2Proof.core (n + 1) s = Host.Core.run Sys2Proof.core n u := by
  have h' : Sys2Proof.core.step s = .next u := h
  simp only [Host.Core.run, h']

/-- The first step of a run that answers. -/
theorem run_succ_inv {n : Nat} {s t : State} (h : Host.Core.run Sys2Proof.core (n + 1) s = .next t) :
    ∃ u, step s = .next u ∧ Host.Core.run Sys2Proof.core n u = .next t := by
  cases hs : step s with
  | next u => exact ⟨u, rfl, run_succ hs ▸ h⟩
  | fault r => cases r
  | refused r =>
    have hs' : Sys2Proof.core.step s = .refused r := hs
    simp [Host.Core.run, hs'] at h

end Sys2Proof.Machine
end

