-- ==== Sys2Proof/Laws/Helpers.lean ====
section
/-! SUPPORT. The pairs clear-screen draws at, and the size of the expansions. -/

namespace Sys2Proof.Machine

/-- The grid has 2000 cells (R100). -/
theorem gridPairs_length : gridPairs.length = 2000 := by
  unfold gridPairs
  simp [rows, cols]

/-- Clear-screen draws at in-grid pairs only (R122). -/
theorem gridPairs_bounds {q : Half × Half} (h : q ∈ gridPairs) : q.1.toNat ≤ 24 ∧ q.2.toNat ≤ 79 := by
  unfold gridPairs rows cols at h
  simp only [List.mem_flatMap, List.mem_range, List.mem_map] at h
  obtain ⟨r, hr, c, hc, rfl⟩ := h
  simp only [narrow, BitVec.toNat_ofNat]
  omega

/-- Every cell of the grid is drawn (R122). -/
theorem mem_gridPairs {k : Nat} (h : k < 2000) : (narrow 16 (k / 80), narrow 16 (k % 80)) ∈ gridPairs := by
  unfold gridPairs rows cols
  simp only [List.mem_flatMap, List.mem_range, List.mem_map]
  exact ⟨k / 80, by omega, k % 80, by omega, rfl⟩

/-- Clear-screen's offsets, in order: the even numbers below 4000 (R106, R122). -/
theorem gridPairs_offsets : gridPairs.map (fun q => gridOffset q.1 q.2) = (List.range 2000).map (fun k => 2 * k) := by
  unfold gridPairs rows cols
  decide +kernel

/-- A clear over some pairs is one command more than the pairs. -/
theorem clearOver_length (p : HelperParams) (pairs : List (Half × Half)) :
    (clearOver p pairs).length = pairs.length + 1 := by
  simp [clearOver]

end Sys2Proof.Machine
end

