-- ==== Sys2Proof/Laws/Host.lean ====
section
/-! SUPPORT. What the host's issuing of one line does. -/

namespace Sys2Proof.Machine

/-- An idle block: the line's command is executed, and the host records its response. -/
theorem hostIssue_next {h : HostNames} {l : HostLine} {s : State} {i : Instr} (hs : s.seq = .idle)
    (ha : assemble h.cells l.line = some i) (hd : decode (encode i) = .ok i) :
    ∃ t, step { s with commands := encode i :: s.commands } = .next t ∧
      hostIssue h l s = some (h.record l (instrAnswer s.cfg i), t) ∧
      t.seq = .idle ∧ t.commands = s.commands ∧ t.cfg = s.cfg ∧
      t.issued = s.issued ++ instrWrites s.cfg i ++ [.resp (instrAnswer s.cfg i)] := by
  have hst := step_command (s := { s with commands := encode i :: s.commands }) hs rfl hd
  rw [exec_eq_writes] at hst
  refine ⟨_, hst, ?_, rfl, by simp, by simp, by simp [State.takeCommand]⟩
  simp only [hostIssue, hs, if_true, ha]
  rw [← hs, hst]
  simp [State.resp, State.respond, Event.respPart, State.takeCommand]

/-- A busy block takes no line (R13). -/
theorem hostIssue_busy {h : HostNames} {l : HostLine} {s : State} (hs : s.seq ≠ .idle) :
    hostIssue h l s = none := by
  simp [hostIssue, hs]

/-- Names add up line by line (R126). -/
theorem hostRun_cons {h h' : HostNames} {l : HostLine} {rest : List HostLine} {s t : State}
    (hi : hostIssue h l s = some (h', t)) : hostRun h (l :: rest) s = hostRun h' rest t := by
  simp [hostRun, hi]

end Sys2Proof.Machine
end

