-- ==== Sys2Proof/Laws/PerInstr.lean ====
section
/-! SUPPORT. Statements about every instruction as syntax, one lemma per constructor. -/

namespace Sys2Proof.Laws.EncodeHead

/-- The encoded word carries the instruction's opcode (R59) and no reserved bit (R50), and the instruction
is well formed (R60). -/
def Statement (i : Instr) : Prop :=
  i.wellFormed = true ∧ mnemonicOf (opcodeOf (encode i)) = some i.mnemonic ∧
    i.mnemonic.format.reservedClear (encode i) = true

theorem cellNew (char bg fg : Byte) : Statement (.cellNew char bg fg) := by
  simp [Statement, Instr.wellFormed, encode, opcodeOf, extract_or, extract_place_same, extract_place_apart,
    mnemonicOf, Instr.mnemonic, Mnemonic.format, Format.reservedClear]

theorem cellDef : Statement .cellDef := by
  simp [Statement, Instr.wellFormed, encode, opcodeOf, extract_place_same, extract_place_apart,
    mnemonicOf, Instr.mnemonic, Mnemonic.format, Format.reservedClear]

theorem cellSetch (cell : Cell) (c : Byte) : Statement (.cellSetch cell c) := by
  simp [Statement, Instr.wellFormed, encode, opcodeOf, extract_or, extract_place_same, extract_place_apart,
    mnemonicOf, Instr.mnemonic, Mnemonic.format, Format.reservedClear]

theorem cellSetbg (cell : Cell) (color : Byte) : Statement (.cellSetbg cell color) := by
  simp [Statement, Instr.wellFormed, encode, opcodeOf, extract_or, extract_place_same, extract_place_apart,
    mnemonicOf, Instr.mnemonic, Mnemonic.format, Format.reservedClear]

theorem cellSetfg (cell : Cell) (color : Byte) : Statement (.cellSetfg cell color) := by
  simp [Statement, Instr.wellFormed, encode, opcodeOf, extract_or, extract_place_same, extract_place_apart,
    mnemonicOf, Instr.mnemonic, Mnemonic.format, Format.reservedClear]

theorem cellDraw (cell : Cell) (offset : Half) : Statement (.cellDraw cell offset) := by
  simp [Statement, Instr.wellFormed, encode, opcodeOf, extract_or, extract_place_same, extract_place_apart,
    mnemonicOf, Instr.mnemonic, Mnemonic.format, Format.reservedClear]

theorem fbDraw (row col : Half) (cell : Cell) : Statement (.fbDraw row col cell) := by
  simp [Statement, Instr.wellFormed, encode, opcodeOf, extract_or, extract_place_same, extract_place_apart,
    mnemonicOf, Instr.mnemonic, Mnemonic.format, Format.reservedClear]

theorem portOut (port : Half) (value : Byte) : Statement (.portOut port value) := by
  simp [Statement, Instr.wellFormed, encode, opcodeOf, extract_or, extract_place_same, extract_place_apart,
    mnemonicOf, Instr.mnemonic, Mnemonic.format, Format.reservedClear]

theorem uartDiv (base divisor : Half) : Statement (.uartDiv base divisor) := by
  simp [Statement, Instr.wellFormed, encode, opcodeOf, extract_or, extract_place_same, extract_place_apart,
    mnemonicOf, Instr.mnemonic, Mnemonic.format, Format.reservedClear]

end Sys2Proof.Laws.EncodeHead
end

