-- ==== Sys2Proof/Machine/Text.lean ====
section
/-! DEFINITION. The textual syntax of 30_encoding.md R63, as a reader of one line of text, given as its characters:
`[name <-] MNEMONIC operand, operand, … [-> name]`. Spaces around a part do not count (log entry 16). -/

namespace Sys2Proof.Machine

/-- A line without the spaces at its two ends. -/
def trimSpaces (t : List Char) : List Char :=
  ((t.dropWhile (· == ' ')).reverse.dropWhile (· == ' ')).reverse

/-- The value of a digit, lower or upper case. -/
def digitValue (c : Char) : Option Nat :=
  if '0' ≤ c ∧ c ≤ '9' then some (c.toNat - '0'.toNat)
  else if 'a' ≤ c ∧ c ≤ 'f' then some (c.toNat - 'a'.toNat + 10)
  else if 'A' ≤ c ∧ c ≤ 'F' then some (c.toNat - 'A'.toNat + 10)
  else none

/-- The number some digits stand for in a base, after `n`. -/
def readDigits (base : Nat) : Nat → List Char → Option Nat
  | n, [] => some n
  | n, c :: rest =>
    match digitValue c with
    | none => none
    | some d => if d < base then readDigits base (n * base + d) rest else none

/-- A number, decimal or `0x` hexadecimal. -/
def readNumber : List Char → Option Nat
  | [] => none
  | ['0', 'x'] => none
  | '0' :: 'x' :: digits => readDigits 16 0 digits
  | digits => readDigits 10 0 digits

/-- The four colour names (R55), as R63's examples spell them. -/
def readColour (t : List Char) : Option Colour :=
  if t = ['B', 'l', 'u', 'e'] then some .blue
  else if t = ['G', 'r', 'e', 'e', 'n'] then some .green
  else if t = ['R', 'e', 'd'] then some .red
  else if t = ['W', 'h', 'i', 't', 'e'] then some .white
  else none

/-- A name of the host's: a letter, then letters, digits and underscores. -/
def readName : List Char → Option String
  | [] => none
  | c :: rest =>
    if c.isAlpha && rest.all (fun d => d.isAlphanum || d == '_') then some (String.ofList (c :: rest)) else none

/-- An operand: a quoted character, a number, a colour name, or a name. Each form is read in every operand position
(DESIGN CHOICE, log entry 17). -/
def readOperand : List Char → Option Operand
  | ['\'', c, '\''] => some (.quoted c)
  | t =>
    match readNumber t with
    | some n => some (.num n)
    | none =>
      match readColour t with
      | some c => some (.colour c)
      | none => (readName t).map .name

/-- The parts of a text between commas; a quoted comma does not separate. -/
def splitCommas : List Char → List (List Char)
  | [] => [[]]
  | '\'' :: c :: '\'' :: rest =>
    match splitCommas rest with
    | [] => [['\'', c, '\'']]
    | part :: parts => ('\'' :: c :: '\'' :: part) :: parts
  | c :: rest =>
    if c = ',' then [] :: splitCommas rest
    else
      match splitCommas rest with
      | [] => [[c]]
      | part :: parts => (c :: part) :: parts

/-- The operands of a line; none at all when nothing follows the mnemonic. -/
def readOperands (t : List Char) : Option (List Operand) :=
  if trimSpaces t = [] then some [] else (splitCommas t).mapM fun part => readOperand (trimSpaces part)

/-- The mnemonic a word spells (R59). -/
def readMnemonic (t : List Char) : Option Mnemonic :=
  [Mnemonic.cellNew, .cellDef, .cellSetch, .cellSetbg, .cellSetfg, .cellDraw, .fbDraw, .portOut, .uartDiv].find?
    fun m => String.ofList t == m.text

/-- A mnemonic and its operands. -/
def readCommand (t : List Char) : Option AsmLine :=
  match readMnemonic (t.takeWhile (· != ' ')), readOperands (t.dropWhile (· != ' ')) with
  | some m, some os => some ⟨m, os⟩
  | some _, none => none
  | none, _ => none

/-- A text cut at the first place where `a` is followed by `b`. -/
def cutAt (a b : Char) : List Char → Option (List Char × List Char)
  | [] => none
  | [_] => none
  | c :: d :: rest =>
    if c = a ∧ d = b then some ([], rest)
    else (cutAt a b (d :: rest)).map fun (before, after) => (c :: before, after)

/-- A command with the name that takes its status, if one is given. -/
def readStatusPart (cellName : Option String) (t : List Char) : Option HostLine :=
  match cutAt '-' '>' t with
  | none => (readCommand (trimSpaces t)).map fun l => ⟨cellName, l, none⟩
  | some (command, name) =>
    match readCommand (trimSpaces command), readName (trimSpaces name) with
    | some l, some x => some ⟨cellName, l, some x⟩
    | some _, none => none
    | none, _ => none

/-- A whole line (R63). -/
def readLine (t : List Char) : Option HostLine :=
  match cutAt '<' '-' t with
  | none => readStatusPart none t
  | some (name, command) =>
    match readName (trimSpaces name) with
    | none => none
    | some x => readStatusPart (some x) command

end Sys2Proof.Machine
end

