-- ==== Sys2Proof/Tests/Slice0.lean ====
section
/-! SUPPORT. The model's own tests. Expected words, writes and responses are those of spec/95_test_vectors.md (the
vector is named) or worked out by hand from the rule named. The witnesses at the end meet the
hypotheses of the statements in Certificates/Slice0/Obligations.lean. -/

namespace Sys2Proof.Machine

/-! ### Small machines -/

/-- A block at the base 0xB8000 with 32-bit addresses: any base would do (R5). -/
def testCfg (policy : BoundsPolicy) : Config where
  fbBase := 0xB8000
  addrWidth := 32
  policy := policy
  fits := by decide

/-- An idle block, as after reset, with some words to come. -/
def issuing (policy : BoundsPolicy) (ws : List Word) : State :=
  { State.resetWith (testCfg policy) with commands := ws }

/-- What `n` steps of the block with the literal bounds test leave of the three records; none on a stop. -/
def records (policy : BoundsPolicy) (n : Nat) (ws : List Word) :
    Option (List (Nat × Byte) × List (Half × Byte) × List Word) :=
  match Host.Core.run Sys2Proof.core n (issuing policy ws) with
  | .next t => some (t.mtrace.map (fun w => (w.1 - 0xB8000, w.2)), t.ptrace, t.resp.map Response.word)
  | .fault _ => none
  | .refused _ => none

/-- The known bytes of the display memory after `n` steps, by offset, and the mark. -/
def screen (policy : BoundsPolicy) (n : Nat) (ws : List Word) : Option (List (Nat × Byte) × Bool) :=
  match Host.Core.run Sys2Proof.core n (issuing policy ws) with
  | .next t => some (t.mem.map (fun c => (c.1 - 0xB8000, c.2)), t.leftRegion)
  | .fault _ => none
  | .refused _ => none

/-! ### Well-formedness -/

/-- `FB.DRAW 12, 40, 0x4141` (R103's example) is well formed; so is a line with a quoted character and two colours
(R63), and one with a named cell. -/
theorem test_wellFormed_lines :
    (AsmLine.mk .fbDraw [.num 12, .num 40, .num 0x4141]).wellFormed [] = true ∧
    (AsmLine.mk .cellNew [.quoted 'A', .colour .blue, .colour .red]).wellFormed [] = true ∧
    (AsmLine.mk .cellDraw [.name "c", .num 65535]).wellFormed [("c", 0x4141#16)] = true := by decide

/-- Refused: one operand too few, one too many. -/
theorem test_illFormed_operand_count :
    (AsmLine.mk .fbDraw [.num 12, .num 40]).wellFormed [] = false ∧
    (AsmLine.mk .cellDef [.num 0]).wellFormed [] = false := by decide

/-- Refused: a 17-bit port, a 9-bit colour, a character beyond 8 bits (R75: its high bits would be lost). -/
theorem test_illFormed_operand_width :
    (AsmLine.mk .portOut [.num 0x10000, .num 0]).wellFormed [] = false ∧
    (AsmLine.mk .cellSetbg [.num 0x4141, .num 0x100]).wellFormed [] = false ∧
    (AsmLine.mk .cellNew [.quoted 'Ā', .num 0, .num 0]).wellFormed [] = false := by decide

/-- Refused: a name that stands for no earlier result. -/
theorem test_illFormed_unknown_name :
    (AsmLine.mk .cellDraw [.name "d", .num 0]).wellFormed [("c", 0x4141#16)] = false := by decide

/-- Every command is well formed (R60), the extreme operand values among them. -/
theorem test_wellFormed_instr :
    (Instr.fbDraw 65535#16 65535#16 ⟨0xFF#8, 0xFF#8⟩).wellFormed = true := by decide

/-! ### Decoding: words written out bit by bit from the formats of R51 -/

/-- L1-4: OP 0x01, FG 4, BG 1, CHAR 0x41. -/
theorem test_decode_cellNew : decode 0x0100000000040141#64 = .ok (.cellNew 0x41#8 0x01#8 0x04#8) := rfl
/-- L1-9. -/
theorem test_decode_cellDef : decode 0x0200000000000000#64 = .ok .cellDef := rfl
/-- R88's example: ARG 0x41, CELL 0x2054. -/
theorem test_decode_cellSetch :
    decode 0x0300000000412054#64 = .ok (.cellSetch ⟨0x54#8, 0x20#8⟩ 0x41#8) := rfl
/-- R89's example: ARG 2, CELL 0x4141. -/
theorem test_decode_cellSetbg :
    decode 0x0400000000024141#64 = .ok (.cellSetbg ⟨0x41#8, 0x41#8⟩ 0x02#8) := rfl
/-- R90's example: ARG 15, CELL 0x4241. -/
theorem test_decode_cellSetfg :
    decode 0x05000000000F4241#64 = .ok (.cellSetfg ⟨0x41#8, 0x42#8⟩ 0x0F#8) := rfl
/-- R91's example: OFFSET 1840, CELL 0xF241. -/
theorem test_decode_cellDraw :
    decode 0x060000000730F241#64 = .ok (.cellDraw ⟨0x41#8, 0xF2#8⟩ 1840#16) := rfl
/-- P1: ROW 12, COL 40, CELL 0xF241. -/
theorem test_decode_fbDraw :
    decode 0x0700000C0028F241#64 = .ok (.fbDraw 12#16 40#16 ⟨0x41#8, 0xF2#8⟩) := rfl
/-- V-PO-1: PORT 0x3FB, VALUE 0x80. -/
theorem test_decode_portOut : decode 0x080000000003FB80#64 = .ok (.portOut 0x3FB#16 0x80#8) := rfl
/-- L1-7: BASE 0x3F8, DIVISOR 0x0C00. -/
theorem test_decode_uartDiv : decode 0x0900000003F80C00#64 = .ok (.uartDiv 0x3F8#16 0x0C00#16) := rfl

/-- V-IL-1 to V-IL-9, each rejected by its reason. -/
theorem test_decode_illegal :
    decode 0x0000000000000000#64 = .error (.unassignedOpcode 0x00#8) ∧
    decode 0x0A00000000000000#64 = .error (.unassignedOpcode 0x0A#8) ∧
    decode 0xFFFFFFFFFFFFFFFF#64 = .error (.unassignedOpcode 0xFF#8) ∧
    decode 0x0200000000000001#64 = .error (.reservedBitSet .cellDef) ∧
    decode 0x0701001A00000000#64 = .error (.reservedBitSet .fbDraw) ∧
    decode 0x0100000001000000#64 = .error (.reservedBitSet .cellNew) ∧
    decode 0x0900000103F80C00#64 = .error (.reservedBitSet .uartDiv) ∧
    decode 0x0800000001000000#64 = .error (.reservedBitSet .portOut) ∧
    decode 0x0600000100002054#64 = .error (.reservedBitSet .cellDraw) :=
  ⟨rfl, rfl, rfl, rfl, rfl, rfl, rfl, rfl, rfl⟩

/-- The encoder gives the words the spec writes out for the same commands. -/
theorem test_encode_words :
    encode (.cellNew 0x41#8 0x01#8 0x04#8) = 0x0100000000040141#64 ∧
    encode .cellDef = 0x0200000000000000#64 ∧
    encode (.cellSetch ⟨0x54#8, 0x20#8⟩ 0x41#8) = 0x0300000000412054#64 ∧
    encode (.cellSetbg ⟨0x41#8, 0x41#8⟩ 0x02#8) = 0x0400000000024141#64 ∧
    encode (.cellSetfg ⟨0x41#8, 0x42#8⟩ 0x0F#8) = 0x05000000000F4241#64 ∧
    encode (.cellDraw ⟨0x41#8, 0xF2#8⟩ 1840#16) = 0x060000000730F241#64 ∧
    encode (.fbDraw 12#16 40#16 ⟨0x41#8, 0xF2#8⟩) = 0x0700000C0028F241#64 ∧
    encode (.portOut 0x3FB#16 0x80#8) = 0x080000000003FB80#64 ∧
    encode (.uartDiv 0x3F8#16 0x0C00#16) = 0x0900000003F80C00#64 := by decide

/-- The table's own words, as the host numbers them; a value wider than the word is none. -/
theorem test_decodeTableWord :
    decodeTableWord 64 0x0700000C00284141 = some (.fbDraw 12#16 40#16 ⟨0x41#8, 0x41#8⟩) ∧
    decodeTableWord 64 0x0A00000000000000 = none ∧
    decodeTableWord 128 0x100000000000000000 = none := by decide

/-! ### One step of each command -/

/-- V-CN: L1-4's CELL.NEW answers 0x4141; R86: BG 0x31 gives the same cell as BG 0x01. -/
theorem test_step_cellNew :
    records .literal 1 [0x0100000000040141#64] = some ([], [], [0x0000000000004141#64]) ∧
    records .literal 1 [0x0100000000043141#64] = some ([], [], [0x0000000000004141#64]) :=
  ⟨by decide, by decide⟩

/-- R87: CELL.DEF answers 0x2054. -/
theorem test_step_cellDef :
    records .literal 1 [0x0200000000000000#64] = some ([], [], [0x0000000000002054#64]) := by decide

/-- R88: CELL.SETCH 0x2054, 'A' answers 0x2041. -/
theorem test_step_cellSetch :
    records .literal 1 [0x0300000000412054#64] = some ([], [], [0x0000000000002041#64]) := by decide

/-- L1-4: CELL.SETBG 0x4141, 2 answers 0x4241; R89: ARG 0x12 acts as 0x02. -/
theorem test_step_cellSetbg :
    records .literal 1 [0x0400000000024141#64] = some ([], [], [0x0000000000004241#64]) ∧
    records .literal 1 [0x0400000000124141#64] = some ([], [], [0x0000000000004241#64]) :=
  ⟨by decide, by decide⟩

/-- L1-4: CELL.SETFG 0x4241, 15 answers 0xF241; R90: ARG 0xFF acts as 0x0F. -/
theorem test_step_cellSetfg :
    records .literal 1 [0x05000000000F4241#64] = some ([], [], [0x000000000000F241#64]) ∧
    records .literal 1 [0x0500000000FF4241#64] = some ([], [], [0x000000000000F241#64]) :=
  ⟨by decide, by decide⟩

/-- R91's example: two writes, the character first. -/
theorem test_step_cellDraw :
    records .literal 1 [0x060000000730F241#64] =
      some ([(1840, 0x41#8), (1841, 0xF2#8)], [], [0x0000000000000000#64]) := by decide

/-- R91 (a): OFFSET 3999 writes the character in the region and the attribute outside it. -/
theorem test_step_cellDraw_edge :
    records .literal 1 [0x060000000F9F2054#64] =
      some ([(3999, 0x54#8), (4000, 0x20#8)], [], [0x0000000000000000#64]) ∧
    screen .literal 1 [0x060000000F9F2054#64] = some ([(3999, 0x54#8)], true) := by decide

/-- P6, commands 3 and 4: row 25 is accepted and leaves the region; row 26 is rejected. -/
theorem test_step_fbDraw_literal :
    records .literal 2 [0x0700001900002054#64, 0x0700001A00002054#64] =
      some ([(4000, 0x54#8), (4001, 0x20#8)], [], [0#64, 0xFFFFFFFF00000000#64]) ∧
    screen .literal 1 [0x0700001900002054#64] = some ([], true) := by decide

/-- P6 in both variants: the draw at (3, 80) lands on the cell (4, 0), or is rejected. -/
theorem test_step_fbDraw_aliasing :
    screen .literal 2 [0x0700000400004141#64, 0x0700000300502054#64] =
      some ([(640, 0x54#8), (641, 0x20#8)], false) ∧
    screen .corrected 2 [0x0700000400004141#64, 0x0700000300502054#64] =
      some ([(640, 0x41#8), (641, 0x41#8)], false) := by decide

/-- V-PO-5: two equal port writes are two writes. -/
theorem test_step_portOut :
    records .literal 2 [0x080000000003FB80#64, 0x080000000003FB80#64] =
      some ([], [(0x3FB#16, 0x80#8), (0x3FB#16, 0x80#8)], [0#64, 0#64]) := by decide

/-- V-UD-1, the document's, and V-UD-6, where base + 3 wraps to 0. -/
theorem test_step_uartDiv :
    records .literal 1 [0x0900000003F80C00#64] =
      some ([], [(0x3FB#16, 0x80#8), (0x3F8#16, 0x0C#8), (0x3F8#16, 0x00#8)], [0#64]) ∧
    records .literal 1 [0x09000000FFFD1234#64] =
      some ([], [(0x0000#16, 0x80#8), (0xFFFD#16, 0x12#8), (0xFFFD#16, 0x34#8)], [0#64]) := ⟨by decide, by decide⟩

/-- V-IL-5: legality is tested before the coordinates; no write. -/
theorem test_step_illegal :
    records .literal 1 [0x0701001A00000000#64] = some ([], [], [0xFFFFFFFE00000000#64]) := by decide

/-- P7: illegal words do not disturb the stream. -/
theorem test_stream_with_illegal_words :
    screen .literal 4 [0x0600000000002054#64, 0#64, 0x0701001A00000000#64, 0x060000000002F241#64] =
      some ([(0, 0x54#8), (1, 0x20#8), (2, 0x41#8), (3, 0xF2#8)], false) := by decide

/-- The word `withFetchWord` puts first is the next step's command, before any other, on this hardware. -/
theorem test_withFetchWord :
    ∃ t, step (State.reset.withFetchWord 64 0x080000000003FB80) = .next t ∧
      t.ptrace = [(0x3FB#16, 0x80#8)] ∧ t.resp = [⟨0#32, 0#32⟩] := ⟨_, rfl, rfl, rfl⟩

/-- L1-8 and V-NW-2 to V-NW-7. -/
theorem test_narrow :
    narrow 16 0x1FFFF = 0xFFFF#16 ∧ narrow 16 0x10000 = 0x0000#16 ∧ narrow 8 0x180 = 0x80#8 ∧
    readSigned (narrowSigned 8 0x180) = -128 ∧ readSigned (narrowSigned 8 0x1FF) = -1 ∧
    narrow 4 0x14 = 0x4#4 ∧ nib 0xFF#8 = 0x0F#8 := by decide

/-! ### The host -/

/-- R63: `CELL.NEW 'A', Blue, Red` and `FB.DRAW 12, 40, c` with `c` = 0x4141 are the words of L1-4 and R103. -/
theorem test_assemble :
    (assemble [] ⟨.cellNew, [.quoted 'A', .colour .blue, .colour .red]⟩).map encode =
      some 0x0100000000040141#64 ∧
    (assemble [("c", 0x4141#16)] ⟨.fbDraw, [.num 12, .num 40, .name "c"]⟩).map encode =
      some 0x0700000C00284141#64 := by decide

/-- The texts of P1 and P3 that carry a cell's name and a status's name. -/
theorem test_text_names :
    readLine "c0 <- CELL.NEW 'A', Blue, Red".toList =
      some ⟨some "c0", ⟨.cellNew, [.quoted 'A', .colour .blue, .colour .red]⟩, none⟩ ∧
    readLine "FB.DRAW 26, 0, s -> st".toList =
      some ⟨none, ⟨.fbDraw, [.num 26, .num 0, .name "s"]⟩, some "st"⟩ := by decide

/-- Hexadecimal numbers, a command without operands, a quoted comma. -/
theorem test_text_forms :
    readLine "UART.DIV 0x3F8, 0x0C00".toList = some ⟨none, ⟨.uartDiv, [.num 0x3F8, .num 0x0C00]⟩, none⟩ ∧
    readLine "CELL.DEF".toList = some ⟨none, ⟨.cellDef, []⟩, none⟩ ∧
    readLine "CELL.SETCH 0x2054, ','".toList = some ⟨none, ⟨.cellSetch, [.num 0x2054, .quoted ',']⟩, none⟩ := by
  decide

/-- No line: a mnemonic the block lacks (R64), an empty operand, a number that is none. -/
theorem test_text_refused :
    readLine "FB.CLEAR".toList = none ∧ readLine "PORT.OUT 1,".toList = none ∧
    readLine "PORT.OUT 0x, 1".toList = none := by decide

/-- V-HP-1 and V-HP-2: the words of CELL.PUT. -/
theorem test_cellPut_words :
    commandWords (cellPut 0#16 0x41#8 4#8 1#8) = [0x0100000000040141#64, 0x0600000000004141#64] ∧
    commandWords (cellPut 3998#16 0x54#8 2#8 0#8) = [0x0100000000020054#64, 0x060000000F9E2054#64] := by decide

/-- P2: the words of FB.CORNERS. -/
theorem test_fbCorners_words :
    commandWords fbCorners = [0x0200000000000000#64, 0x0700000000002054#64, 0x07000000004F2054#64,
      0x0700001800002054#64, 0x07000018004F2054#64] := by decide

/-- Sample helper parameters: P4's blank cell, P5's colours and place, a two-character banner, and the cursor ports
of G3. -/
def testHelpers : HelperParams where
  clearChar := 0x20#8
  clearFg := 7#8
  clearBg := 0#8
  bannerText := [0x4F#8, 0x53#8]
  bannerRow := 12#16
  bannerStartCol := 21#16
  bannerFg := 15#8
  bannerBg := 1#8
  cursorCmdPort := 0x3D4#16
  cursorDataPort := 0x3D5#16
  cursorSelHigh := 14#8
  cursorSelLow := 15#8

/-- P4: the first commands of FB.CLEAR, and its last. -/
theorem test_fbClear_words :
    (commandWords (fbClear testHelpers)).take 3 =
      [0x0100000000070020#64, 0x0700000000007020#64, 0x0700000000017020#64] := by decide

/-- P5, the characters 0 and 1, whatever larger bound the loop has. -/
theorem test_fbBanner_words :
    commandWords (fbBannerBounded 5 testHelpers) = [0x01000000000F014F#64, 0x0700000C0015F14F#64,
      0x01000000000F0153#64, 0x0700000C0016F153#64] := by decide

/-- V-HP-4 with sample ports. -/
theorem test_curMove_words :
    records .literal 4 (commandWords (curMove testHelpers 0x07CF#16)) =
      some ([], [(0x3D4#16, 14#8), (0x3D5#16, 0x07#8), (0x3D4#16, 15#8), (0x3D5#16, 0xCF#8)],
        [0#64, 0#64, 0#64, 0#64]) := by decide

/-- P1's lines, with named results. -/
def composeLines : List HostLine :=
  [⟨some "c0", ⟨.cellNew, [.quoted 'A', .colour .blue, .colour .red]⟩, none⟩,
   ⟨some "c1", ⟨.cellSetbg, [.name "c0", .colour .green]⟩, none⟩,
   ⟨some "c2", ⟨.cellSetfg, [.name "c1", .colour .white]⟩, none⟩,
   ⟨none, ⟨.fbDraw, [.num 12, .num 40, .name "c2"]⟩, some "st"⟩]

/-- P1: what the host keeps, and the two bytes drawn. -/
theorem test_host_compose :
    (hostRun ⟨[], []⟩ composeLines (issuing .literal [])).map (fun r => r.1) =
      some ⟨[("c2", 0xF241#16), ("c1", 0x4241#16), ("c0", 0x4141#16)], [("st", 0#32)]⟩ ∧
    (hostRun ⟨[], []⟩ composeLines (issuing .literal [])).map (fun r => r.2.issued.drop 3) =
      some [.mem (0xB8000 + 2000) 0x41#8, .mem (0xB8000 + 2001) 0xF2#8, .resp ⟨0#32, 0#32⟩] := by decide

/-- P3, commands 3 and 4: the host keeps the negative status of a rejected draw, and a busy block takes no line. -/
theorem test_host_status :
    (hostRun ⟨[], []⟩ [⟨some "s", ⟨.cellDef, []⟩, none⟩, ⟨none, ⟨.fbDraw, [.num 26, .num 0, .name "s"]⟩, some "st"⟩]
        (issuing .literal [])).map (fun r => r.1.statuses) = some [("st", 0xFFFFFFFF#32)] ∧
    hostIssue ⟨[], []⟩ ⟨none, ⟨.cellDef, []⟩, none⟩
      { issuing .literal [] with seq := .busy 0x0200000000000000#64 0 } = none := by decide

/-- The expansions written with named cells issue the same writes as the command sequences. -/
theorem test_host_expansions :
    (hostRun ⟨[], []⟩ (cellPutLines 3999#16 0x41#8 0x14#8 0x31#8) (issuing .literal [])).map (fun r => r.2.issued) =
      (match Host.Core.run Sys2Proof.core 2 (issuing .literal (commandWords (cellPut 3999#16 0x41#8 0x14#8 0x31#8)))
        with | .next t => some t.issued | .fault _ => none | .refused _ => none) ∧
    (hostRun ⟨[], []⟩ fbCornersLines (issuing .corrected [])).map (fun r => r.2.issued) =
      (match Host.Core.run Sys2Proof.core 5 (issuing .corrected (commandWords fbCorners))
        with | .next t => some t.issued | .fault _ => none | .refused _ => none) := by decide

/-! ### Witnesses: a concrete case that meets a statement's hypotheses, one for each clause -/

theorem witness_LegalWordEncodesBack : ∃ w i, decode w = .ok i := ⟨_, _, test_decode_fbDraw⟩

theorem witness_OpcodeTableDecides :
    (∃ w, ∃ r ∈ opcodeTable, w &&& r.mask = r.pattern) ∧
    (∃ w : Word, ∀ r ∈ opcodeTable, w &&& r.mask ≠ r.pattern) ∧
    (∃ w, ∃ r ∈ opcodeTable, ∃ r' ∈ opcodeTable, w &&& r.mask = r.pattern ∧ w &&& r'.mask = r'.pattern) :=
  ⟨⟨0x0900000003F80C00#64, by decide⟩, ⟨0x0A00000000000000#64, by decide⟩, ⟨0x0200000000000000#64, by decide⟩⟩

theorem witness_IllegalWordsAreRejectedWithoutEffect :
    ((issuing .literal [0#64]).seq = .idle ∧ (issuing .literal [0#64]).commands = 0#64 :: [] ∧
      legalWord 0#64 = false) ∧
    legalWord 0x0200000000000001#64 = false ∧
    ((issuing .literal [0x07FF000000000000#64]).seq = .idle ∧ legalWord 0x07FF000000000000#64 = false) ∧
    ((issuing .literal [0x0700FFFFFFFFFFFF#64]).seq = .idle ∧ legalWord 0x0700FFFFFFFFFFFF#64 = true) := by
  decide

theorem witness_NarrowingKeepsLowBits : (2 ^ 16 - 1 : Nat) < 2 ^ 16 := by decide

theorem witness_SignedNarrowingKeepsTheSameBits :
    1 ≤ 1 ∧ (narrowSigned 8 128).getLsbD (8 - 1) = true ∧ (narrowSigned 8 127).getLsbD (8 - 1) = false := by decide

theorem witness_WideningReadsTheSameValue : (16 : Nat) ≤ 16 ∧ (16 : Nat) ≤ 32 := by decide

theorem witness_CellValueCommandsArePure :
    (∀ i ∈ [Instr.cellNew 0#8 0#8 0#8, .cellDef, .cellSetch ⟨0#8, 0#8⟩ 0#8, .cellSetbg ⟨0#8, 0#8⟩ 0#8,
        .cellSetfg ⟨0#8, 0#8⟩ 0#8],
      i.mnemonic ∈ [Mnemonic.cellNew, .cellDef, .cellSetch, .cellSetbg, .cellSetfg]) ∧
    (Instr.portOut 0#16 0#8).mnemonic ≠ .cellDraw ∧ (Instr.uartDiv 0#16 0#16).mnemonic ≠ .fbDraw := by decide

/-- The offsets where the clauses meet: both bytes inside at 3998, one at 3999, none at 4000. -/
theorem witness_CellDrawWritesTwoBytes :
    (3998#16).toNat + 1 < 4000 ∧ ((3999#16).toNat < 4000 ∧ ¬(3999#16).toNat + 1 < 4000) ∧
    ¬(4000#16).toNat < 4000 := by decide

/-- Rejected from row 26 and column 81 on, accepted at (25, 80); inside at (24, 79), outside at (24, 80). -/
theorem witness_FbDrawWithLiteralBounds :
    (issuing .literal []).cfg.policy = .literal ∧ 25 < (26#16).toNat ∧ 80 < (81#16).toNat ∧
    ((25#16).toNat ≤ 25 ∧ (80#16).toNat ≤ 80) ∧ (24#16).toNat * 160 + (79#16).toNat * 2 < 4000 ∧
    ¬(24#16).toNat * 160 + (80#16).toNat * 2 < 4000 := by decide

theorem witness_FbDrawWithCorrectedBounds :
    (issuing .corrected []).cfg.policy = .corrected ∧ 24 < (25#16).toNat ∧ 79 < (80#16).toNat ∧
    ((24#16).toNat ≤ 24 ∧ (79#16).toNat ≤ 79) := by decide

theorem witness_RejectedDrawLeavesOnlyItsResponse :
    ∃ (s : State) (w : Word) (rest : List Word) (row col : Half) (cell : Cell),
      s.seq = .idle ∧ s.commands = w :: rest ∧ decode w = .ok (.fbDraw row col cell) ∧
      gridRejects s.cfg.policy row col = true :=
  ⟨issuing .literal [0x0700001A00002054#64], _, [], 26#16, 0#16, ⟨0x54#8, 0x20#8⟩, rfl, rfl, rfl, by decide⟩

/-- The same pair, the two ways through column 80, and an accepted pair at the largest offset. -/
theorem witness_OffsetsMeetOnlyThroughColumn80 :
    gridRejects .literal 25#16 80#16 = false ∧ gridRejects .literal 3#16 80#16 = false ∧
    gridRejects .literal 4#16 0#16 = false ∧ gridOffset 3#16 80#16 = gridOffset 4#16 0#16 ∧
    (4#16).toNat = (3#16).toNat + 1 := by decide

theorem witness_AcceptedDrawsFallInThreeClasses :
    (issuing .literal []).cfg.policy = .literal ∧ ((24#16).toNat ≤ 24 ∧ (79#16).toNat ≤ 79) ∧
    ((23#16).toNat ≤ 23 ∧ (80#16).toNat = 80) ∧ ((24#16).toNat = 24 ∧ (80#16).toNat = 80) ∧
    ((25#16).toNat = 25 ∧ (0#16).toNat ≤ 80) := by decide

theorem witness_LineControlPortWraps : (0xFFFC#16).toNat ≤ 0xFFFC := by decide

/-- After UART.DIV at 0x3F8 the host writes another port: a run that writes no byte to 0x3FB. -/
theorem witness_UartDivLeavesDlabCommanded :
    ∃ t u, exec (.uartDiv 0x3F8#16 0x0C00#16) (issuing .literal [0x080000000003F941#64]) = .next t ∧
      Host.Core.run Sys2Proof.core 1 t = .next u ∧
      ∀ v, (lineControlPort 0x3F8#16, v) ∉ u.ptrace.drop t.ptrace.length := by
  refine ⟨_, _, rfl, rfl, ?_⟩
  intro v
  change (lineControlPort 0x3F8#16, v) ∉ [((0x3F9#16 : Half), (0x41#8 : Byte))]
  intro h
  have h2 := congrArg Prod.fst (List.mem_singleton.1 h)
  revert h2
  change ¬lineControlPort 0x3F8#16 = 0x3F9#16
  decide

theorem witness_StatusOfEveryWord :
    (issuing .literal [0#64]).seq = .idle ∧ legalWord 0#64 = false ∧
    decode 0x0700001A00002054#64 = .ok (.fbDraw 26#16 0#16 ⟨0x54#8, 0x20#8⟩) ∧
    gridRejects .literal 26#16 0#16 = true ∧
    decode 0x0700001900502054#64 = .ok (.fbDraw 25#16 80#16 ⟨0x54#8, 0x20#8⟩) ∧
    gridRejects .literal 25#16 80#16 = false := ⟨rfl, by decide, rfl, by decide, rfl, by decide⟩

theorem witness_StepRunsDecodedCommand :
    ∃ (s : State) (w : Word) (rest : List Word) (i : Instr),
      s.seq = .idle ∧ s.commands = w :: rest ∧ decode w = .ok i :=
  ⟨issuing .literal [0x080000000003FB80#64], _, [], _, rfl, rfl, test_decode_portOut⟩

theorem witness_IdleBlockWaits : State.reset.seq = .idle ∧ State.reset.commands = [] := ⟨rfl, rfl⟩

/-- Idle with a command to take; and UART.DIV with one, and with all three, of its writes done. -/
theorem witness_SequencerRunIsTheStep :
    (∃ w rest, (issuing .literal [0x0900000003F80C00#64]).seq = .idle ∧
      (issuing .literal [0x0900000003F80C00#64]).commands = w :: rest) ∧
    1 ≤ (wordWrites (testCfg .literal) 0x0900000003F80C00#64).length ∧
    3 ≤ (wordWrites (testCfg .literal) 0x0900000003F80C00#64).length ∧
    ({ issuing .literal [] with seq := .busy 0x0900000003F80C00#64 1 } : State).seq =
      .busy 0x0900000003F80C00#64 1 :=
  ⟨⟨_, [], rfl, rfl⟩, by decide, by decide, rfl⟩

theorem witness_DrawnCellIsTornBetweenItsWrites :
    ∃ (s : State) (cell : Cell) (offset : Half) (rest : List Word), s.seq = .idle ∧
      s.commands = encode (.cellDraw cell offset) :: rest ∧ offset.toNat < 4000 :=
  ⟨issuing .literal [encode (.cellDraw ⟨0x54#8, 0x20#8⟩ 3999#16)], _, _, [], rfl, rfl, by decide⟩

/-- Two blocks that differ in everything but the parameters and the next word. -/
theorem witness_CommandsDependOnWordAndParametersOnly :
    ∃ (w : Word) (s s' : State) (rest rest' : List Word), s.cfg = s'.cfg ∧ s.seq = .idle ∧ s'.seq = .idle ∧
      s.commands = w :: rest ∧ s'.commands = w :: rest' ∧ s.mem ≠ s'.mem ∧ s.issued ≠ s'.issued :=
  ⟨0x0700000C00284141#64, issuing .literal [0x0700000C00284141#64],
    { issuing .literal [0x0700000C00284141#64, 0#64] with
      mem := [(0xB8000, 0x20#8)], issued := [.mem 0xB8000 0x20#8], leftRegion := true },
    [], [0#64], rfl, rfl, rfl, rfl, rfl, by decide, by decide⟩

/-- A block that has drawn a cell across the end of the region and is in the middle of UART.DIV. -/
def midway : State where
  cfg := testCfg .literal
  commands := [0x0200000000000000#64]
  seq := .busy 0x0900000003F80C00#64 1
  mem := [(0xB8000 + 3999, 0x54#8)]
  issued := [.mem (0xB8000 + 3999) 0x54#8, .mem (0xB8000 + 4000) 0x20#8, .resp ⟨0#32, 0#32⟩,
    .port 0x3FB#16 0x80#8]
  leftRegion := true

theorem witness_midway_inv : midway.Inv := by
  refine ⟨by decide, by decide, by decide, ?_, ?_⟩
  · have h : Event.legal midway.cfg (.mem (0xB8000 + 3999) 0x54#8) ∧
        Event.legal midway.cfg (.mem (0xB8000 + 4000) 0x20#8) ∧
        Event.legal midway.cfg (.resp ⟨0#32, 0#32⟩) ∧ Event.legal midway.cfg (.port 0x3FB#16 0x80#8) := by
      unfold Event.legal Response.legal midway testCfg
      decide
    intro e he
    simp only [midway, List.mem_cons, List.not_mem_nil, or_false] at he
    rcases he with rfl | rfl | rfl | rfl
    · exact h.1
    · exact h.2.1
    · exact h.2.2.1
    · exact h.2.2.2
  · change 1 ≤ (wordWrites midway.cfg 0x0900000003F80C00#64).length
    decide

theorem witness_StepKeepsInvariant : ∃ s t : State, s.Inv ∧ step s = .next t := ⟨midway, _, witness_midway_inv, rfl⟩

theorem witness_MicroStepKeepsInvariant : ∃ s : State, s.Inv := ⟨midway, witness_midway_inv⟩

theorem witness_NoRunChangesTheParameters :
    ∃ t, Host.Core.run Sys2Proof.core 2 midway = .next t := ⟨_, rfl⟩

/-- A run that writes one byte of the region twice; an address inside, and the one just past it. -/
theorem witness_LastWriteToAByteWins :
    (∃ t, Host.Core.run Sys2Proof.core 2 (issuing .literal [0x0700000400004141#64, 0x0700000300502054#64]) = .next t) ∧
    inRegion (testCfg .literal) (0xB8000 + 3999) = true ∧ inRegion (testCfg .literal) (0xB8000 + 4000) = false :=
  ⟨⟨_, rfl⟩, by decide, by decide⟩

theorem witness_MarkIsSetByLeavingAndNeverCleared :
    ∃ t, Host.Core.run Sys2Proof.core 1 (issuing .literal [0x0700001900002054#64]) = .next t ∧
      t.leftRegion = true := ⟨_, rfl, by decide⟩

/-- CELL.DRAW at the last offset, 65535. -/
theorem witness_AddressesNeverWrap :
    ∃ t, step (issuing .literal [0x06000000FFFF2054#64]) = .next t ∧
      Event.mem (0xB8000 + 65536) 0x20#8 ∈ t.issued :=
  ⟨_, rfl, by decide⟩

theorem witness_EveryCommandGetsOneResponse :
    (issuing .literal [0#64, 0x0200000000000000#64]).seq = .idle ∧
    2 ≤ (issuing .literal [0#64, 0x0200000000000000#64]).commands.length := by decide

/-- A run of the last in-grid draw and the last raw draw inside the region. -/
theorem witness_InGridHostsStayInTheRegion :
    ∃ s t : State, s.seq = .idle ∧ Host.Core.run Sys2Proof.core 2 s = .next t ∧
      ∀ w ∈ s.commands.take 2, ∀ i, decode w = .ok i →
        (∀ row col cell, i = .fbDraw row col cell → InGrid row col) ∧
        (∀ cell offset, i = .cellDraw cell offset → offset.toNat ≤ 3998) := by
  refine ⟨issuing .literal [0x07000018004F2054#64, 0x060000000F9E2054#64], _, rfl, rfl, ?_⟩
  intro w hw i hi
  change w ∈ [0x07000018004F2054#64, 0x060000000F9E2054#64] at hw
  simp only [List.mem_cons, List.not_mem_nil, or_false] at hw
  rcases hw with rfl | rfl
  · change Except.ok (Instr.fbDraw 24#16 79#16 ⟨0x54#8, 0x20#8⟩) = Except.ok i at hi
    cases hi
    refine ⟨?_, ?_⟩
    · intro row col cell h
      cases h
      unfold InGrid rows cols
      decide
    · intro cell offset h
      cases h
  · change Except.ok (Instr.cellDraw ⟨0x54#8, 0x20#8⟩ 3998#16) = Except.ok i at hi
    cases hi
    refine ⟨?_, ?_⟩
    · intro row col cell h
      cases h
    · intro cell offset h
      cases h
      decide

/-- Every helper's sequence in front of an idle block, with more to come. -/
theorem witness_ready_helpers (is : List Instr) (rest : List Word) :
    (issuing .literal (commandWords is ++ rest)).Ready is rest := ⟨rfl, rfl⟩

theorem witness_CellPutWritesOneCell :
    (issuing .literal (commandWords (cellPut 3999#16 0x41#8 4#8 1#8) ++ [])).Ready
      (cellPut 3999#16 0x41#8 4#8 1#8) [] ∧ (3999#16).toNat < 4000 ∧ (3998#16).toNat + 1 < 4000 :=
  ⟨witness_ready_helpers _ _, by decide, by decide⟩

theorem witness_FbClearFillsTheRegion :
    ∃ (p : HelperParams) (s : State) (rest : List Word), s.Ready (fbClear p) rest :=
  ⟨testHelpers, _, [0#64], witness_ready_helpers _ _⟩

/-- The banner's place at its limits: the last row, ending at column 79. -/
theorem witness_FbBannerWritesOneCellPerCharacter :
    ∃ (p : HelperParams) (s : State) (rest : List Word), s.Ready (fbBanner p) rest ∧
      p.bannerRow.toNat ≤ 24 ∧ p.bannerStartCol.toNat + p.bannerText.length ≤ 80 ∧ p.bannerText ≠ [] :=
  ⟨{ testHelpers with bannerRow := 24#16, bannerStartCol := 78#16 }, _, [], witness_ready_helpers _ _,
    by decide, by decide, by decide⟩

theorem witness_BannerTruncatesAtTheStringsEnd : testHelpers.bannerText.length ≤ 80 := by decide

theorem witness_RejectedHelperDrawsDoNotStopIt :
    ∃ (p : HelperParams) (s : State) (rest : List Word), s.Ready (fbBanner p) rest ∧ 25 < p.bannerRow.toNat :=
  ⟨{ testHelpers with bannerRow := 26#16 }, _, [], witness_ready_helpers _ _, by decide⟩

theorem witness_FbCornersDrawsTheFourCorners :
    ∃ (s : State) (rest : List Word), s.Ready fbCorners rest := ⟨_, [], witness_ready_helpers _ _⟩

theorem witness_CurMoveWritesTwoPortPairs :
    ∃ (p : HelperParams) (pos : Half) (s : State) (rest : List Word), s.Ready (curMove p pos) rest :=
  ⟨testHelpers, 0x0050#16, _, [], witness_ready_helpers _ _⟩

theorem witness_AssemblerLosesNothing :
    (AsmLine.mk .fbDraw [.num 65535, .num 80, .num 0x4141]).wellFormed [] = true := by decide

theorem witness_NamedResultsCarryCells :
    (issuing .literal []).seq = .idle ∧ (issuing .literal []).commands = [] ∧
    (24#16).toNat ≤ 24 ∧ (79#16).toNat ≤ 79 := by decide

end Sys2Proof.Machine
end

/-! PROOFS of the state statements (10_state.md): the block at reset, the sequencer write by write against the
atomic step, the invariant along its transitions, and what a run of the machine keeps and answers. -/

namespace Sys2Proof.Machine

/-! ### Reset -/

/-- A block just reset meets the invariant: nothing is listed, nothing is recorded, nothing is latched. -/
theorem State.resetWith_inv (cfg : Config) : (State.resetWith cfg).Inv where
  memWf := List.Pairwise.nil
  memInRegion := by simp
  markExact := by simp
  issuedLegal := by simp
  seqLegal := trivial

/-- Settles O38: this hardware's reset state is one of those `State.resetWith` makes. -/
theorem resetMeetsInvariant : Obligations.ResetMeetsInvariant :=
  ⟨State.resetWith_inv Config.thisHardware, State.resetWith_inv⟩

/-- Settles O37: `State.applyReset` is `State.resetWith` of the same parameters, whose stream is empty. -/
theorem resetLeavesIdleBlock : Obligations.ResetLeavesIdleBlock := by
  refine ⟨fun s => ⟨rfl, rfl, rfl, rfl, rfl, rfl, Memory.read_nil, ?_⟩, rfl, rfl⟩
  exact step_wait (State.resetWith_seq s.cfg) (State.resetWith_commands s.cfg)

/-! ### The atomic step -/

/-- Settles O31: the state with the word taken is `State.takeCommand`. -/
theorem stepRunsDecodedCommand : Obligations.StepRunsDecodedCommand :=
  fun _ _ _ _ hidle hcommands hdecode => step_command hidle hcommands hdecode

/-- A step keeps the parameters, whichever of its three outcomes it has. -/
theorem step_cfg {s t : State} (h : step s = .next t) : t.cfg = s.cfg := by
  obtain ⟨-, -, rfl⟩ | ⟨w, rest, -, -, rfl⟩ | ⟨w, k, -, rfl⟩ := step_cases h
  · rfl
  · simp
  · simp

/-- Settles O41, by induction on the number of steps. -/
theorem noRunChangesTheParameters : Obligations.NoRunChangesTheParameters := by
  intro n
  induction n with
  | zero =>
    intro s t h
    cases h
    rfl
  | succ n ih =>
    intro s t h
    obtain ⟨u, hstep, hrun⟩ := run_succ_inv h
    exact (ih u t hrun).trans (step_cfg hstep)

/-! ### The writes and the answer of a word -/

/-- The writes of a word are memory writes and port writes: none of them contributes to `resp`. -/
@[simp] theorem filterMap_respPart_wordWrites (cfg : Config) (w : Word) :
    (wordWrites cfg w).filterMap Event.respPart = [] := by
  refine List.filterMap_eq_nil_iff.2 fun e he => ?_
  cases e with
  | mem a v => rfl
  | port p v => rfl
  | resp r => exact absurd he (resp_not_mem_wordWrites cfg w r)

/-- Performing a write of a command advances the sequencer by one. -/
theorem State.perform_seq_of_mem_wordWrites {cfg : Config} {w : Word} {e : Event}
    (he : e ∈ wordWrites cfg w) (s : State) : (s.perform e).seq = s.seq.advance := by
  cases e with
  | mem a v => rfl
  | port p v => rfl
  | resp r => exact absurd he (resp_not_mem_wordWrites cfg w r)

/-- Carrying a command out from its first write delivers its response and no other. -/
theorem State.finishCommand_resp (s : State) (w : Word) :
    (s.finishCommand w 0).resp = s.resp ++ [wordAnswer s.cfg w] := by
  simp [State.resp_of_issued (s.finishCommand_issued w 0)]

/-- Settles O45, by induction on the number of words: each step takes one word and answers it. -/
theorem everyCommandGetsOneResponse : Obligations.EveryCommandGetsOneResponse := by
  intro n
  induction n with
  | zero =>
    intro s hidle _
    exact ⟨s, rfl, hidle, by simp, by simp⟩
  | succ n ih =>
    intro s hidle hn
    cases hc : s.commands with
    | nil => simp [hc] at hn
    | cons w rest =>
      obtain ⟨t, hrun, hseq, hcommands, hresp⟩ :=
        ih ((s.takeCommand w rest).finishCommand w 0) rfl (by simpa [hc] using hn)
      refine ⟨t, (run_succ (step_take hidle hc)).trans hrun, hseq, by simpa using hcommands, ?_⟩
      have htaken : (s.takeCommand w rest).resp = s.resp := rfl
      simp [hresp, State.finishCommand_resp, htaken]

/-! ### One transition of the sequencer -/

/-- An idle sequencer with nothing to take stays as it is. -/
theorem State.microStep_wait {s : State} (h : s.seq = .idle) (hc : s.commands = []) : s.microStep = s := by
  simp [State.microStep, h, hc]

/-- An idle sequencer takes the host's next word. -/
theorem State.microStep_take {s : State} {w : Word} {rest : List Word} (h : s.seq = .idle)
    (hc : s.commands = w :: rest) : s.microStep = s.takeCommand w rest := by
  simp [State.microStep, h, hc]

/-- A busy sequencer with writes to do performs the next one. -/
theorem State.microStep_write {s : State} {w : Word} {k : Nat} (h : s.seq = .busy w k)
    (hk : k < (wordWrites s.cfg w).length) : s.microStep = s.perform (wordWrites s.cfg w)[k] := by
  simp [State.microStep, h, hk]

/-- A busy sequencer with all writes done responds. -/
theorem State.microStep_respond {s : State} {w : Word} {k : Nat} (h : s.seq = .busy w k)
    (hk : (wordWrites s.cfg w).length ≤ k) : s.microStep = s.perform (.resp (wordAnswer s.cfg w)) := by
  simp [State.microStep, h, hk]

/-! ### Runs of the sequencer -/

/-- The last transition of a run, split off. -/
theorem State.microRun_succ (n : Nat) (s : State) : s.microRun (n + 1) = (s.microRun n).microStep := by
  induction n generalizing s with
  | zero => rfl
  | succ n ih => exact ih s.microStep

/-- From Busy(w, k), as many transitions as there are writes left, or fewer, perform the next writes in order
and advance the sequencer by as many. -/
theorem State.microRun_writes {s : State} {w : Word} {k j : Nat} (h : s.seq = .busy w k)
    (hj : k + j ≤ (wordWrites s.cfg w).length) :
    s.microRun j = (((wordWrites s.cfg w).drop k).take j).foldl State.perform s ∧
      (s.microRun j).seq = .busy w (k + j) := by
  induction j generalizing s k with
  | zero => exact ⟨by simp [State.microRun], h⟩
  | succ j ih =>
    have hk : k < (wordWrites s.cfg w).length := by omega
    have hseq : (s.perform (wordWrites s.cfg w)[k]).seq = .busy w (k + 1) := by
      rw [State.perform_seq_of_mem_wordWrites (List.getElem_mem hk), h, Seq.advance_busy]
    obtain ⟨hrun, hbusy⟩ := ih hseq (by rw [State.perform_cfg]; omega)
    rw [State.perform_cfg] at hrun
    rw [State.microRun, State.microStep_write h hk, List.drop_eq_getElem_cons hk]
    exact ⟨hrun, by rw [hbusy, Nat.add_right_comm, Nat.add_assoc]⟩

/-- From Busy(w, k), the run through the remaining writes and the response carries the command out. -/
theorem State.microRun_finish {s : State} {w : Word} {k : Nat} (h : s.seq = .busy w k)
    (hk : k ≤ (wordWrites s.cfg w).length) :
    s.microRun ((wordWrites s.cfg w).length - k + 1) = s.finishCommand w k := by
  obtain ⟨hrun, hbusy⟩ := State.microRun_writes (j := (wordWrites s.cfg w).length - k) h (by omega)
  have hall : ((wordWrites s.cfg w).drop k).take ((wordWrites s.cfg w).length - k) =
      (wordWrites s.cfg w).drop k := List.take_of_length_le (by simp)
  have hcfg : (s.microRun ((wordWrites s.cfg w).length - k)).cfg = s.cfg := by simp [hrun]
  rw [State.microRun_succ, State.microStep_respond hbusy (by rw [hcfg]; omega), hcfg, hrun, hall]
  rfl

/-- Taking a word, and then up to all of its writes: the first `j` of them are performed, in order. -/
theorem State.microRun_take_writes {s : State} {w : Word} {rest : List Word} {j : Nat} (hidle : s.seq = .idle)
    (hc : s.commands = w :: rest) (hj : j ≤ (wordWrites s.cfg w).length) :
    s.microRun (j + 1) = ((wordWrites s.cfg w).take j).foldl State.perform (s.takeCommand w rest) ∧
      (s.microRun (j + 1)).seq = .busy w j := by
  rw [State.microRun, State.microStep_take hidle hc]
  simpa using State.microRun_writes (s := s.takeCommand w rest) (j := j) rfl (by simpa using hj)

/-- Taking a word, all of its writes and the response: the word is taken and carried out. -/
theorem State.microRun_take_finish {s : State} {w : Word} {rest : List Word} (hidle : s.seq = .idle)
    (hc : s.commands = w :: rest) :
    s.microRun ((wordWrites s.cfg w).length + 2) = (s.takeCommand w rest).finishCommand w 0 := by
  rw [State.microRun, State.microStep_take hidle hc]
  exact State.microRun_finish (s := s.takeCommand w rest) rfl (Nat.zero_le _)

/-- Settles O33: both the step and the run are `State.finishCommand`, from idle after the word is taken. -/
theorem sequencerRunIsTheStep : Obligations.SequencerRunIsTheStep := by
  constructor
  · intro s w rest hidle hc
    rw [State.microRun_take_finish hidle hc]
    refine ⟨fun j hj => ?_, step_take hidle hc, rfl, by simp⟩
    obtain ⟨hrun, hseq⟩ := State.microRun_take_writes hidle hc hj
    exact ⟨hseq, by simp [hrun], by simp [hrun]⟩
  · intro s w k hbusy hk
    rw [State.microRun_finish hbusy hk]
    exact ⟨step_busy hbusy, State.finishCommand_commands s w k⟩

/-! ### The invariant along the sequencer's transitions -/

/-- A pair the grid test accepts has an offset of at most 4160, under either policy (R102). -/
theorem gridOffset_le_of_accepted {policy : BoundsPolicy} {row col : Half}
    (h : gridRejects policy row col = false) : gridOffset row col ≤ 4160 := by
  have hrow : rowLimit policy ≤ 25 := by cases policy <;> decide
  have hcol : colLimit policy ≤ 80 := by cases policy <;> decide
  simp only [gridRejects, Bool.or_eq_false_iff, decide_eq_false_iff_not] at h
  unfold gridOffset
  omega

/-- The two writes of the cell writer at a 16-bit offset go to addresses the block can form (R33). -/
theorem legal_of_mem_cellWrites {cfg : Config} {cell : Cell} {offset : Nat} (h : offset < 65536) :
    ∀ e ∈ cellWrites cfg cell offset, e.legal cfg := by
  have := cfg.fits
  simp only [cellWrites, List.forall_mem_cons, Event.legal, fbAddr]
  exact ⟨by omega, by omega, by simp⟩

/-- Every write of a command is legal. -/
theorem legal_of_mem_instrWrites {cfg : Config} {i : Instr} : ∀ e ∈ instrWrites cfg i, e.legal cfg := by
  cases i with
  | cellDraw cell offset => exact legal_of_mem_cellWrites offset.isLt
  | fbDraw row col cell =>
    cases h : gridRejects cfg.policy row col with
    | true => simp [instrWrites, h]
    | false =>
      have := gridOffset_le_of_accepted h
      simpa [instrWrites, h] using legal_of_mem_cellWrites (cfg := cfg) (cell := cell) (by omega)
  | _ => simp [instrWrites, Event.legal]

/-- Every write of a word is legal; an illegal word has none. -/
theorem legal_of_mem_wordWrites {cfg : Config} {w : Word} : ∀ e ∈ wordWrites cfg w, e.legal cfg := by
  unfold wordWrites
  split
  · exact legal_of_mem_instrWrites
  · simp

/-- A response that carries a cell is legal: a cell has 16 bits (R52). -/
theorem Response.legal_cell (cell : Cell) : Response.legal ⟨statusOk, cellValue cell⟩ := by
  refine ⟨.inl rfl, fun h => absurd rfl h, ?_⟩
  have := cell.toHalf.isLt
  simp only [cellValue, BitVec.toNat_setWidth]
  omega

/-- A response with VALUE 0 and one of the three statuses is legal. -/
theorem Response.legal_zero {status : BitVec 32}
    (h : status = statusOk ∨ status = stRange ∨ status = stIllegal) : Response.legal ⟨status, 0#32⟩ :=
  ⟨h, fun _ => rfl, Nat.two_pow_pos 16⟩

/-- The response of a command is legal. -/
theorem instrAnswer_legal (cfg : Config) (i : Instr) : (instrAnswer cfg i).legal := by
  cases i with
  | cellNew | cellDef | cellSetch | cellSetbg | cellSetfg => exact Response.legal_cell _
  | cellDraw | portOut | uartDiv => exact Response.legal_zero (.inl rfl)
  | fbDraw row col cell =>
    refine Response.legal_zero ?_
    split
    · exact .inr (.inl rfl)
    · exact .inl rfl

/-- The response of a word is legal; an illegal word's is ST_ILLEGAL. -/
theorem wordAnswer_legal (cfg : Config) (w : Word) : (wordAnswer cfg w).legal := by
  unfold wordAnswer
  split
  · exact instrAnswer_legal cfg _
  · exact Response.legal_zero (.inr (.inr rfl))

/-- Taking a word keeps the invariant: none of the word's writes is done yet. -/
theorem State.Inv.takeCommand {s : State} (h : s.Inv) (w : Word) (rest : List Word) :
    (s.takeCommand w rest).Inv :=
  { h with seqLegal := Nat.zero_le _ }

/-- Performing a legal act keeps the invariant, if the sequencer is legal after it. -/
theorem State.Inv.perform {s : State} (h : s.Inv) {e : Event} (he : e.legal s.cfg)
    (hseq : (s.perform e).seq.legal s.cfg) : (s.perform e).Inv where
  memWf := State.perform_wf h.memWf e
  memInRegion := by simpa using State.perform_memInRegion h.memInRegion e
  markExact := by simp [h.markExact]
  issuedLegal := by
    simp only [State.perform_issued, State.perform_cfg, List.forall_mem_append, List.forall_mem_singleton]
    exact ⟨h.issuedLegal, he⟩
  seqLegal := by simpa using hseq

/-- Settles O40, by the four transitions of the sequencer. -/
theorem microStepKeepsInvariant : Obligations.MicroStepKeepsInvariant := by
  intro s h
  cases hs : s.seq with
  | idle =>
    cases hc : s.commands with
    | nil => rwa [State.microStep_wait hs hc]
    | cons w rest => exact State.microStep_take hs hc ▸ h.takeCommand w rest
  | busy w k =>
    rcases Nat.lt_or_ge k (wordWrites s.cfg w).length with hk | hk
    · rw [State.microStep_write hs hk]
      have hmem := List.getElem_mem hk
      refine h.perform (legal_of_mem_wordWrites _ hmem) ?_
      rw [State.perform_seq_of_mem_wordWrites hmem, hs, Seq.advance_busy]
      exact hk
    · rw [State.microStep_respond hs hk]
      exact h.perform (wordAnswer_legal s.cfg w) trivial

end Sys2Proof.Machine

/-! PROOFS of the memory statements (20_memory.md): the invariant along the atomic step, the torn cell between
the two writes of a draw, and what a run makes of the bytes, the mark and the addresses it writes. -/

namespace Sys2Proof.Machine

/-! ### The invariant along a step -/

/-- A run of the sequencer keeps the invariant. -/
theorem State.Inv.microRun {s : State} (h : s.Inv) (n : Nat) : (s.microRun n).Inv := by
  induction n generalizing s with
  | zero => exact h
  | succ n ih => exact ih (microStepKeepsInvariant s h)

/-- Settles O39: a step that carries a command to its response is a run of the sequencer, each transition of which
keeps the invariant; of a command in flight, a state that meets the invariant has at most all writes done. -/
theorem stepKeepsInvariant : Obligations.StepKeepsInvariant := by
  intro s t h hstep
  obtain ⟨-, -, rfl⟩ | ⟨w, rest, hidle, hc, rfl⟩ | ⟨w, k, hbusy, rfl⟩ := step_cases hstep
  · exact h
  · exact State.microRun_take_finish hidle hc ▸ h.microRun _
  · have hk : k ≤ (wordWrites s.cfg w).length := by simpa [hbusy, Seq.legal] using h.seqLegal
    exact State.microRun_finish hbusy hk ▸ h.microRun _

/-! ### Between the two writes of a draw -/

/-- The word of a CELL.DRAW decodes to it. -/
theorem decode_encode_cellDraw (cell : Cell) (offset : Half) :
    decode (encode (.cellDraw cell offset)) = .ok (.cellDraw cell offset) := by
  obtain ⟨-, hop, hres⟩ := Laws.EncodeHead.cellDraw cell offset
  refine (decode_eq_ok_iff _ _).2 ⟨_, hop, hres, ?_⟩
  simp [Instr.mnemonic, Mnemonic.extract, encode, extract_or, extract_place_same, extract_place_apart]

/-- Taking a CELL.DRAW and performing one write is taking its word and writing the character. -/
theorem State.microRun_two_cellDraw {s : State} {cell : Cell} {offset : Half} {rest : List Word}
    (hidle : s.seq = .idle) (hc : s.commands = encode (.cellDraw cell offset) :: rest) :
    s.microRun 2 = (s.takeCommand (encode (.cellDraw cell offset)) rest).memWrite
      (fbAddr s.cfg offset.toNat) cell.char := by
  have hw : wordWrites s.cfg (encode (.cellDraw cell offset)) = cellWrites s.cfg cell offset.toNat := by
    simp [wordWrites, decode_encode_cellDraw, instrWrites]
  obtain ⟨hrun, -⟩ := State.microRun_take_writes (j := 1) hidle hc (by simp [hw, cellWrites])
  simpa [hw, cellWrites] using hrun

/-- What a byte of the buffer reads as after one byte write. -/
theorem State.buffer_memWrite (s : State) (offset i : Nat) (v : Byte) :
    (s.memWrite (fbAddr s.cfg offset) v).buffer i =
      if offset = i ∧ offset < 4000 then some v else s.buffer i := by
  rw [State.buffer, State.read_memWrite]
  simp [State.buffer]

/-- Taking a word changes no byte of the buffer. -/
@[simp] theorem State.buffer_takeCommand (s : State) (w : Word) (rest : List Word) (i : Nat) :
    (s.takeCommand w rest).buffer i = s.buffer i := rfl

/-- Settles O34: the one write performed is the character's, and the byte above has another address. -/
theorem drawnCellIsTornBetweenItsWrites : Obligations.DrawnCellIsTornBetweenItsWrites := by
  intro s cell offset rest hidle hc hoffset
  rw [State.microRun_two_cellDraw hidle hc]
  refine ⟨?_, ?_, ?_⟩
  · simpa [hoffset] using State.buffer_memWrite (s.takeCommand _ rest) offset.toNat offset.toNat cell.char
  · simpa using State.buffer_memWrite (s.takeCommand _ rest) offset.toNat (offset.toNat + 1) cell.char
  · simp [State.resp]

/-! ### The last write to a byte -/

/-- An act leaves what was known of the last write to `a` unless it is itself such a write. -/
theorem latestMem_eq_or (a : Nat) (found : Option Byte) (e : Event) :
    latestMem a found e = (latestMem a none e).or found := by
  cases e with
  | mem b v => by_cases h : b = a <;> simp [latestMem, h]
  | port p v => rfl
  | resp r => rfl

/-- What is known of the last write to `a` after some acts, whatever was known before them. -/
theorem foldl_latestMem (es : List Event) (a : Nat) (found : Option Byte) :
    es.foldl (latestMem a) found = (lastMemWrite es a).or found := by
  induction es generalizing found with
  | nil => rfl
  | cons e es ih =>
    rw [lastMemWrite, List.foldl_cons, List.foldl_cons, ih, ih (latestMem a none e), Option.or_assoc,
      ← latestMem_eq_or]

/-- A later write to `a` counts before an earlier one. -/
theorem lastMemWrite_append (es fs : List Event) (a : Nat) :
    lastMemWrite (es ++ fs) a = (lastMemWrite fs a).or (lastMemWrite es a) := by
  rw [lastMemWrite, List.foldl_append, foldl_latestMem]
  rfl

/-! ### What some acts make of a state -/

/-- `t` is what the acts `es`, in order, make of the parameters, the records, the mark and the bytes of `s`;
the sequencer and the host's stream are left free. -/
structure State.Performs (s : State) (es : List Event) (t : State) : Prop where
  cfg : t.cfg = s.cfg
  issued : t.issued = s.issued ++ es
  mark : t.leftRegion = (s.leftRegion || es.any (Event.leavesRegion s.cfg))
  readInside : ∀ a, inRegion s.cfg a = true → t.mem.read a = (lastMemWrite es a).or (s.mem.read a)
  readOutside : ∀ a, inRegion s.cfg a = false → t.mem.read a = s.mem.read a

/-- No act changes nothing. -/
theorem State.Performs.refl (s : State) : s.Performs [] s where
  cfg := rfl
  issued := by simp
  mark := by simp
  readInside _ _ := rfl
  readOutside _ _ := rfl

/-- Some acts, then others, are all of them in order. -/
theorem State.Performs.trans {s t u : State} {es fs : List Event} (h : s.Performs es t) (h' : t.Performs fs u) :
    s.Performs (es ++ fs) u where
  cfg := h'.cfg.trans h.cfg
  issued := by simp [h'.issued, h.issued]
  mark := by simp [h'.mark, h.mark, h.cfg, Bool.or_assoc]
  readInside a ha := by
    rw [h'.readInside a (by rwa [h.cfg]), h.readInside a ha, lastMemWrite_append, Option.or_assoc]
  readOutside a ha := (h'.readOutside a (by rwa [h.cfg])).trans (h.readOutside a ha)

/-- Performing one act. -/
theorem State.perform_performs (s : State) (e : Event) : s.Performs [e] (s.perform e) where
  cfg := by simp
  issued := by simp
  mark := by simp
  readInside a ha := by
    cases e with
    | mem b v =>
      rw [State.perform_mem, State.read_memWrite]
      by_cases h : b = a <;> simp [lastMemWrite, latestMem, h, ha]
    | port p v => rfl
    | resp r => rfl
  readOutside a ha := by
    cases e with
    | mem b v => rw [State.perform_mem, State.read_memWrite, if_neg (by rintro ⟨rfl, hb⟩; simp [ha] at hb)]
    | port p v => rfl
    | resp r => rfl

/-- Carrying out a list of acts. -/
theorem State.foldl_perform_performs (es : List Event) (s : State) :
    s.Performs es (es.foldl State.perform s) := by
  induction es generalizing s with
  | nil => exact .refl s
  | cons e es ih => exact (s.perform_performs e).trans (ih (s.perform e))

/-- Taking a word is no act. -/
theorem State.takeCommand_performs (s : State) (w : Word) (rest : List Word) :
    s.Performs [] (s.takeCommand w rest) :=
  { State.Performs.refl s with }

/-- Carrying a command to its response performs the writes left to do and the response. -/
theorem State.finishCommand_performs (s : State) (w : Word) (k : Nat) :
    s.Performs ((wordWrites s.cfg w).drop k ++ [.resp (wordAnswer s.cfg w)]) (s.finishCommand w k) :=
  (State.foldl_perform_performs _ s).trans (State.perform_performs _ (.resp (wordAnswer s.cfg w)))

/-- The acts with which a command is carried to its response are legal. -/
theorem legal_of_mem_finish {cfg : Config} {w : Word} {k : Nat} :
    ∀ e ∈ (wordWrites cfg w).drop k ++ [.resp (wordAnswer cfg w)], e.legal cfg := by
  simp only [List.forall_mem_append, List.forall_mem_singleton]
  exact ⟨fun e he => legal_of_mem_wordWrites e (List.mem_of_mem_drop he), wordAnswer_legal cfg w⟩

/-- A step performs some acts, all of them legal. -/
theorem step_performs {s t : State} (h : step s = .next t) :
    ∃ es, s.Performs es t ∧ ∀ e ∈ es, e.legal s.cfg := by
  obtain ⟨-, -, rfl⟩ | ⟨w, rest, -, -, rfl⟩ | ⟨w, k, -, rfl⟩ := step_cases h
  · exact ⟨[], .refl t, by simp⟩
  · exact ⟨_, (s.takeCommand_performs w rest).trans (State.finishCommand_performs _ w 0), legal_of_mem_finish⟩
  · exact ⟨_, s.finishCommand_performs w k, legal_of_mem_finish⟩

/-- A run performs some acts, by induction on the number of steps. -/
theorem run_performs {n : Nat} {s t : State} (h : Host.Core.run Sys2Proof.core n s = .next t) :
    ∃ es, s.Performs es t := by
  induction n generalizing s with
  | zero =>
    cases h
    exact ⟨[], .refl t⟩
  | succ n ih =>
    obtain ⟨u, hstep, hrun⟩ := run_succ_inv h
    obtain ⟨es, hes, -⟩ := step_performs hstep
    obtain ⟨fs, hfs⟩ := ih hrun
    exact ⟨es ++ fs, hes.trans hfs⟩

/-! ### The bytes, the mark and the addresses of a run -/

/-- Settles O42, for the acts the run performs. -/
theorem lastWriteToAByteWins : Obligations.LastWriteToAByteWins := by
  intro n s t h
  obtain ⟨es, hes⟩ := run_performs h
  exact ⟨es, hes.issued, hes.readInside, hes.readOutside⟩

/-- A memory write leaves the region below its first byte or beyond its last (R18, R44). -/
theorem Event.leavesRegion_mem_bounds (cfg : Config) (a : Nat) (v : Byte) :
    (Event.mem a v).leavesRegion cfg = (decide (a < cfg.fbBase) || decide (cfg.fbBase + 4000 ≤ a)) := by
  simp [inRegion, ← decide_not]

/-- Settles O43, for the acts the run performs: the statement's test is `Event.leavesRegion` with the bounds
written out. -/
theorem markIsSetByLeavingAndNeverCleared : Obligations.MarkIsSetByLeavingAndNeverCleared := by
  intro n s t h
  obtain ⟨es, hes⟩ := run_performs h
  refine ⟨es, hes.issued, hes.mark.trans ?_⟩
  congr 2
  funext e
  cases e with
  | mem a v => exact Event.leavesRegion_mem_bounds s.cfg a v
  | port p v => rfl
  | resp r => rfl

/-- The memory writes of a grid draw lie at most 4161 above the base: 4160 and the byte above (R102). -/
theorem addr_le_of_mem_fbDraw_writes {cfg : Config} {row col : Half} {cell : Cell} {a : Nat} {v : Byte}
    (h : Event.mem a v ∈ instrWrites cfg (.fbDraw row col cell)) : a ≤ cfg.fbBase + 4161 := by
  cases hrejects : gridRejects cfg.policy row col with
  | true => simp [instrWrites, hrejects] at h
  | false =>
    have hoffset := gridOffset_le_of_accepted hrejects
    obtain ⟨ha, -⟩ | ⟨ha, -⟩ :
        (a = cfg.fbBase + gridOffset row col ∧ v = cell.char) ∨
          (a = cfg.fbBase + (gridOffset row col + 1) ∧ v = cell.attr) := by
      simpa [instrWrites, hrejects, cellWrites, fbAddr] using h
    all_goals omega

/-- Settles O44: every act of a step is legal, and a grid draw's writes are those its rule lists. -/
theorem addressesNeverWrap : Obligations.AddressesNeverWrap := by
  constructor
  · intro s t h
    obtain ⟨es, hes, hlegal⟩ := step_performs h
    exact ⟨es, hes.issued, fun a v he => hlegal _ he⟩
  · intro row col cell s
    refine ⟨_, instrWrites s.cfg (.fbDraw row col cell) ++ [.resp (instrAnswer s.cfg (.fbDraw row col cell))],
      exec_eq_writes _ s, by simp, fun a v he => ?_⟩
    exact addr_le_of_mem_fbDraw_writes (cell := cell) (v := v) (by simpa using he)

end Sys2Proof.Machine

/-! PROOFS of the encoding statements (30_encoding.md): the two round trips of the command word, the opcode table,
the illegal words, the response word, the assembler's lines, and the host that keeps results under names. -/

namespace Sys2Proof

/-! ### Decoding an encoded command (R50 to R52, R59) -/

/-- Every command's word carries its opcode and no reserved bit. -/
theorem encodeHead (i : Instr) : Laws.EncodeHead.Statement i :=
  match i with
  | .cellNew char bg fg => Laws.EncodeHead.cellNew char bg fg
  | .cellDef => Laws.EncodeHead.cellDef
  | .cellSetch cell c => Laws.EncodeHead.cellSetch cell c
  | .cellSetbg cell color => Laws.EncodeHead.cellSetbg cell color
  | .cellSetfg cell color => Laws.EncodeHead.cellSetfg cell color
  | .cellDraw cell offset => Laws.EncodeHead.cellDraw cell offset
  | .fbDraw row col cell => Laws.EncodeHead.fbDraw row col cell
  | .portOut port value => Laws.EncodeHead.portOut port value
  | .uartDiv base divisor => Laws.EncodeHead.uartDiv base divisor

/-- Every field of a command's word reads back as the operand put there: the other fields of the format are
apart from it. -/
theorem extract_encode (i : Instr) : i.mnemonic.extract (encode i) = i := by
  cases i <;>
    simp [Instr.mnemonic, Mnemonic.extract, encode, extract_or, extract_place_same, extract_place_apart]

/-- The decoder undoes the encoder. -/
theorem decode_encode (i : Instr) : decode (encode i) = .ok i := by
  obtain ⟨-, hop, hreserved⟩ := encodeHead i
  exact (decode_eq_ok_iff _ _).2 ⟨i.mnemonic, hop, hreserved, extract_encode i⟩

/-- Settles O1: the encoded word's opcode and reserved bits are right, and each field reads back. -/
theorem encodedInstructionDecodesBack : Obligations.EncodedInstructionDecodesBack :=
  fun i => ⟨(encodeHead i).1, decode_encode i⟩

/-! ### The opcode of a mnemonic (R59) -/

/-- The OP value of a mnemonic's row in the opcode map. -/
def Mnemonic.opcode : Mnemonic → BitVec 8
  | .cellNew => 0x01#8
  | .cellDef => 0x02#8
  | .cellSetch => 0x03#8
  | .cellSetbg => 0x04#8
  | .cellSetfg => 0x05#8
  | .cellDraw => 0x06#8
  | .fbDraw => 0x07#8
  | .portOut => 0x08#8
  | .uartDiv => 0x09#8

/-- The opcode map inverts `Mnemonic.opcode`, and assigns no other opcode. -/
theorem mnemonicOf_eq_some_iff {op : BitVec 8} {m : Mnemonic} : mnemonicOf op = some m ↔ op = m.opcode := by
  revert op
  cases m <;> decide

/-- The unassigned opcodes (R60). -/
theorem mnemonicOf_eq_none_iff {op : BitVec 8} : mnemonicOf op = none ↔ op.toNat = 0 ∨ 0x0A ≤ op.toNat := by
  revert op
  decide

/-- The fields read for a mnemonic make a command of that mnemonic. -/
@[simp] theorem Mnemonic.extract_mnemonic (w : Word) (m : Mnemonic) : (m.extract w).mnemonic = m := by
  cases m <;> rfl

/-! ### A word is its fields -/

/-- Two adjacent fields decide the field they make together. -/
theorem extract_join {x y : Word} {start a b : Nat} (hlow : x.extractLsb' start a = y.extractLsb' start a)
    (hhigh : x.extractLsb' (start + a) b = y.extractLsb' (start + a) b) :
    x.extractLsb' start (a + b) = y.extractLsb' start (a + b) := by
  apply BitVec.eq_of_getLsbD_eq
  intro i hi
  rcases Nat.lt_or_ge i a with h | h
  · simpa [hi, h] using congrArg (BitVec.getLsbD · i) hlow
  · simpa [hi, show i - a < b by omega, show start + a + (i - a) = start + i by omega] using
      congrArg (BitVec.getLsbD · (i - a)) hhigh

/-- How many low bits of a word hold the operands of a format; the bits from there up to OP are reserved (R51). -/
def Format.operandBits : Format → Nat
  | .n => 0
  | .k => 24
  | .m => 24
  | .d => 32
  | .g => 48
  | .p => 24
  | .u => 32

/-- The reserved bits of a format are the one field between its operands and OP. -/
theorem Format.reservedClear_iff (w : Word) (f : Format) :
    f.reservedClear w = true ↔ w.extractLsb' f.operandBits (56 - f.operandBits) = 0#_ := by
  cases f <;> exact beq_iff_eq

/-- Operands lie below OP. -/
theorem Format.operandBits_le (f : Format) : f.operandBits ≤ 56 := by
  cases f <;> decide

/-- A word is its operand bits, its reserved bits and its opcode (R50). -/
theorem word_eq_of_parts {x y : Word} (f : Format) (hop : opcodeOf x = opcodeOf y)
    (hreserved : x.extractLsb' f.operandBits (56 - f.operandBits) =
      y.extractLsb' f.operandBits (56 - f.operandBits))
    (hoperands : x.extractLsb' 0 f.operandBits = y.extractLsb' 0 f.operandBits) : x = y := by
  have hbelow : x.extractLsb' 0 56 = y.extractLsb' 0 56 := by
    have h := extract_join hoperands (by simpa using hreserved)
    rwa [Nat.add_sub_cancel' f.operandBits_le] at h
  simpa using extract_join (a := 56) (b := 8) hbelow hop

/-- A cell's 16-bit field decides it, and is decided by it. -/
theorem Cell.ofHalf_inj {a b : Half} : Cell.ofHalf a = Cell.ofHalf b ↔ a = b :=
  ⟨fun h => by simpa using congrArg Cell.toHalf h, congrArg _⟩

/-- The fields read for a mnemonic are all the operand bits of its format: none is dropped. -/
theorem operands_eq_of_extract_eq {x y : Word} {m : Mnemonic} (h : m.extract x = m.extract y) :
    x.extractLsb' 0 m.format.operandBits = y.extractLsb' 0 m.format.operandBits := by
  cases m with
  | cellNew =>
    obtain ⟨hchar, hbg, hfg⟩ := Instr.cellNew.inj h
    exact extract_join (extract_join hchar hbg) hfg
  | cellDef => exact Subsingleton.elim (α := BitVec 0) _ _
  | cellSetch =>
    obtain ⟨hcell, hc⟩ := Instr.cellSetch.inj h
    exact extract_join (Cell.ofHalf_inj.1 hcell) hc
  | cellSetbg =>
    obtain ⟨hcell, hcolor⟩ := Instr.cellSetbg.inj h
    exact extract_join (Cell.ofHalf_inj.1 hcell) hcolor
  | cellSetfg =>
    obtain ⟨hcell, hcolor⟩ := Instr.cellSetfg.inj h
    exact extract_join (Cell.ofHalf_inj.1 hcell) hcolor
  | cellDraw =>
    obtain ⟨hcell, hoffset⟩ := Instr.cellDraw.inj h
    exact extract_join (Cell.ofHalf_inj.1 hcell) hoffset
  | fbDraw =>
    obtain ⟨hrow, hcol, hcell⟩ := Instr.fbDraw.inj h
    exact extract_join (extract_join (Cell.ofHalf_inj.1 hcell) hcol) hrow
  | portOut =>
    obtain ⟨hport, hvalue⟩ := Instr.portOut.inj h
    exact extract_join hvalue hport
  | uartDiv =>
    obtain ⟨hbase, hdivisor⟩ := Instr.uartDiv.inj h
    exact extract_join hdivisor hbase

/-- No two words decode to the same command. -/
theorem decode_inj {x y : Word} {i : Instr} (hx : decode x = .ok i) (hy : decode y = .ok i) : x = y := by
  obtain ⟨m, hopx, hresx, rfl⟩ := (decode_eq_ok_iff _ _).1 hx
  obtain ⟨n, hopy, hresy, heq⟩ := (decode_eq_ok_iff _ _).1 hy
  obtain rfl : n = m := by simpa using congrArg Instr.mnemonic heq
  rw [mnemonicOf_eq_some_iff] at hopx hopy
  rw [Format.reservedClear_iff] at hresx hresy
  exact word_eq_of_parts n.format (hopx.trans hopy.symm) (hresx.trans hresy.symm)
    (operands_eq_of_extract_eq heq.symm)

/-- Settles O2: the command's own encoding decodes to it too, and no two words do. -/
theorem legalWordEncodesBack : Obligations.LegalWordEncodesBack :=
  fun _ i h => decode_inj (decode_encode i) h


/-! ### The rows of the opcode table (R65) -/

/-- An OP value on its own, as a word: no bit of any format is set. -/
theorem opcodeOf_place (op : BitVec 8) : opcodeOf (place 56 op) = op :=
  extract_place_same op (by decide)

/-- The bits a format fixes: OP and the reserved bits, all those from its operands up. -/
def Format.mask (f : Format) : Word := BitVec.allOnes 64 <<< f.operandBits

/-- Under the mask a word keeps its opcode. -/
theorem opcodeOf_and_mask (w : Word) (f : Format) : opcodeOf (w &&& f.mask) = opcodeOf w := by
  have h : f.mask.extractLsb' 56 8 = BitVec.allOnes 8 := by cases f <;> decide
  rw [opcodeOf, BitVec.extractLsb'_and, h, BitVec.and_allOnes, opcodeOf]

/-- Under the mask a word keeps its reserved bits. -/
theorem reserved_and_mask (w : Word) (f : Format) :
    (w &&& f.mask).extractLsb' f.operandBits (56 - f.operandBits) =
      w.extractLsb' f.operandBits (56 - f.operandBits) := by
  have h : f.mask.extractLsb' f.operandBits (56 - f.operandBits) = BitVec.allOnes _ := by cases f <;> decide
  rw [BitVec.extractLsb'_and, h, BitVec.and_allOnes]

/-- Under the mask a word loses its operands. -/
theorem operands_and_mask (w : Word) (f : Format) : (w &&& f.mask).extractLsb' 0 f.operandBits = 0#_ := by
  have h : f.mask.extractLsb' 0 f.operandBits = 0#_ := by cases f <;> decide
  rw [BitVec.extractLsb'_and, h, BitVec.and_zero]

/-- The match/mask test compares a word's opcode and its reserved bits, and looks at no operand. -/
theorem and_mask_eq_place_iff (w : Word) (op : BitVec 8) (f : Format) :
    w &&& f.mask = place 56 op ↔ opcodeOf w = op ∧ f.reservedClear w = true := by
  have hbelow : ∀ start len, start + len ≤ 56 → (place 56 op).extractLsb' start len = 0#len :=
    fun _ _ h => extract_place_apart op (.inr h)
  have hle := f.operandBits_le
  rw [Format.reservedClear_iff, ← opcodeOf_and_mask w f, ← reserved_and_mask]
  constructor
  · intro h
    rw [h]
    exact ⟨opcodeOf_place op, hbelow _ _ (by omega)⟩
  · rintro ⟨hop, hreserved⟩
    exact word_eq_of_parts f (hop.trans (opcodeOf_place op).symm) (hreserved.trans (hbelow _ _ (by omega)).symm)
      ((operands_and_mask w f).trans (hbelow _ _ (by omega)).symm)

/-- The row of a mnemonic: its opcode alone, under the mask of its format. -/
def Mnemonic.row (m : Mnemonic) : OpcodeRow := ⟨m, place 56 m.opcode, m.format.mask⟩

/-- The table holds the row of every mnemonic. -/
theorem Mnemonic.row_mem_opcodeTable (m : Mnemonic) : m.row ∈ opcodeTable := by
  cases m <;> decide

/-- The table holds no other row. -/
theorem eq_row_of_mem_opcodeTable {r : OpcodeRow} (h : r ∈ opcodeTable) : ∃ m : Mnemonic, r = m.row :=
  ⟨r.mnemonic, (by decide : ∀ r ∈ opcodeTable, r = r.mnemonic.row) r h⟩

/-- The row of a mnemonic selects exactly the words the decoder reads as that mnemonic. -/
theorem Mnemonic.row_selects_iff (m : Mnemonic) (w : Word) :
    w &&& m.row.mask = m.row.pattern ↔ mnemonicOf (opcodeOf w) = some m ∧ m.format.reservedClear w = true := by
  rw [mnemonicOf_eq_some_iff]
  exact and_mask_eq_place_iff w m.opcode m.format

/-- A word is legal exactly when it decodes to a command. -/
theorem legalWord_iff {w : Word} : legalWord w = true ↔ ∃ i, decode w = .ok i := by
  unfold legalWord
  cases decode w <;> simp

/-- Settles O3: a row of the table is some mnemonic's, and selects the words the decoder reads as that mnemonic. -/
theorem opcodeTableDecides : Obligations.OpcodeTableDecides := by
  refine ⟨by decide, ?_, ?_, ?_⟩
  · intro w r hr hsel
    obtain ⟨m, rfl⟩ := eq_row_of_mem_opcodeTable hr
    obtain ⟨hop, hreserved⟩ := (m.row_selects_iff w).1 hsel
    exact ⟨m.extract w, (decode_eq_ok_iff _ _).2 ⟨m, hop, hreserved, rfl⟩, m.extract_mnemonic w⟩
  · intro w hnone
    refine Bool.eq_false_iff.2 fun hlegal => ?_
    obtain ⟨i, hi⟩ := legalWord_iff.1 hlegal
    obtain ⟨m, hop, hreserved, -⟩ := (decode_eq_ok_iff _ _).1 hi
    exact hnone m.row m.row_mem_opcodeTable ((m.row_selects_iff w).2 ⟨hop, hreserved⟩)
  · intro w r hr r' hr' hsel hsel'
    obtain ⟨m, rfl⟩ := eq_row_of_mem_opcodeTable hr
    obtain ⟨n, rfl⟩ := eq_row_of_mem_opcodeTable hr'
    obtain ⟨hop, -⟩ := (m.row_selects_iff w).1 hsel
    obtain ⟨hop', -⟩ := (n.row_selects_iff w).1 hsel'
    rw [Option.some.inj (hop.symm.trans hop')]

/-! ### Illegal words (R60, R143) -/

/-- The opcode as a number. -/
theorem opcodeOf_toNat (w : Word) : (opcodeOf w).toNat = w.toNat / 2 ^ 56 := by
  rw [opcodeOf, BitVec.extractLsb'_toNat, Nat.shiftRight_eq_div_pow]
  omega

/-- The reserved bits as a number. -/
theorem Format.reservedClear_eq_false_iff (w : Word) (f : Format) :
    f.reservedClear w = false ↔ w.toNat / 2 ^ f.operandBits % 2 ^ (56 - f.operandBits) ≠ 0 := by
  rw [← Bool.not_eq_true, Format.reservedClear_iff, ← BitVec.toNat_inj, BitVec.extractLsb'_toNat,
    Nat.shiftRight_eq_div_pow, BitVec.toNat_ofNat, Nat.zero_mod]

/-- A word with an assigned opcode is illegal exactly when a reserved bit is set. -/
theorem legalWord_of_mnemonic {w : Word} {m : Mnemonic} (h : mnemonicOf (opcodeOf w) = some m) :
    legalWord w = m.format.reservedClear w := by
  rw [legalWord, decode_of_mnemonic h]
  cases m.format.reservedClear w <;> rfl

/-- A word with an unassigned opcode is illegal. -/
theorem legalWord_of_unassigned {w : Word} (h : mnemonicOf (opcodeOf w) = none) : legalWord w = false := by
  rw [legalWord, decode, h]

namespace Machine

/-- Every command answers STATUS_OK or ST_RANGE (R144). -/
theorem instrAnswer_status (cfg : Config) (i : Instr) :
    (instrAnswer cfg i).status = statusOk ∨ (instrAnswer cfg i).status = stRange := by
  cases i with
  | fbDraw row col cell => exact (ite_eq_or_eq _ _ _).symm
  | _ => exact .inl rfl

/-- Rejecting a word just taken by an idle block records the failure and drops the word. -/
theorem State.rejectWord_takeCommand {s : State} (hidle : s.seq = .idle) (w : Word) (rest : List Word) :
    (s.takeCommand w rest).rejectWord =
      { s with commands := rest, issued := s.issued ++ [.resp ⟨stIllegal, 0#32⟩] } := by
  simp [State.rejectWord, State.fail, State.respond, State.takeCommand, hidle]

/-- Settles O4: a word's mnemonic, if its opcode has one, names the format whose reserved bits decide; a legal
word answers as its command does. -/
theorem illegalWordsAreRejectedWithoutEffect : Obligations.IllegalWordsAreRejectedWithoutEffect := by
  refine ⟨fun w => ?_, by decide, ?_, ?_⟩
  · have hop := opcodeOf_toNat w
    cases hm : mnemonicOf (opcodeOf w) with
    | none =>
      have hunassigned := mnemonicOf_eq_none_iff.1 hm
      rw [hop] at hunassigned
      simp only [legalWord_of_unassigned hm, true_iff]
      tauto
    | some m =>
      rw [legalWord_of_mnemonic hm, Format.reservedClear_eq_false_iff]
      rw [mnemonicOf_eq_some_iff.1 hm] at hop
      rw [← hop]
      cases m <;> simp [Mnemonic.opcode, Mnemonic.format, Format.operandBits]
  · intro s w rest hidle hc hillegal
    cases hd : decode w with
    | ok i => simp [legalWord, hd] at hillegal
    | error r => rw [step_illegal hidle hc hd, State.rejectWord_takeCommand hidle]; rfl
  · intro s w rest hidle hc hlegal
    obtain ⟨i, hi⟩ := legalWord_iff.1 hlegal
    refine ⟨_, _, step_take hidle hc, State.finishCommand_resp _ w, ?_⟩
    simp only [wordAnswer, hi]
    rcases instrAnswer_status s.cfg i with h | h <;> simp [h, statusOk, stRange]

/-! ### Written-out words and the response word (R51, R53) -/

/-- Settles O5: each word is read by evaluating the decoder. -/
theorem writtenOutWordsDecode : Obligations.WrittenOutWordsDecode :=
  ⟨rfl, rfl, rfl, rfl, rfl, rfl, rfl, rfl, rfl⟩

/-- STATUS is the high half of the response word. -/
theorem Response.word_toNat (r : Response) : r.word.toNat = r.status.toNat * 2 ^ 32 + r.value.toNat := by
  rw [Response.word, BitVec.toNat_append, ← Nat.shiftLeft_add_eq_or_of_lt r.value.isLt, Nat.shiftLeft_eq]

/-- Settles O6: the signs of the three statuses are evaluated. -/
theorem responseWordLayout : Obligations.ResponseWordLayout :=
  ⟨Response.word_toNat, rfl, rfl, rfl⟩

end Machine

/-! ### The operands of an assembler line (R63, R75) -/

/-- An operand fits a field when it has a value below 2 to the field's width. -/
theorem Operand.fits_iff {vars : HostVars} {width : Nat} {o : Operand} :
    o.fits vars width = true ↔ ∃ v, o.value vars = some v ∧ v < 2 ^ width := by
  unfold Operand.fits
  cases o.value vars <;> simp

/-- A line is well formed when its operands fit the mnemonic's fields, one for one. -/
theorem AsmLine.wellFormed_iff {vars : HostVars} {l : AsmLine} :
    l.wellFormed vars = true ↔
      List.Forall₂ (fun o width => o.fits vars width = true) l.operands l.mnemonic.operandWidths := by
  simp [AsmLine.wellFormed, List.forall₂_iff_zip]

/-- The values fit fields of those widths, one for one. -/
abbrev FitWidths : List Nat → List Nat → Prop := List.Forall₂ fun v width => v < 2 ^ width

/-- Operands that fit have values, which fit. -/
theorem exists_values_of_fits {vars : HostVars} {os : List Operand} {widths : List Nat}
    (h : List.Forall₂ (fun o width => Operand.fits vars width o = true) os widths) :
    ∃ vs, os.mapM (Operand.value vars) = some vs ∧ FitWidths vs widths := by
  induction h with
  | nil => exact ⟨[], rfl, .nil⟩
  | cons ho _ ih =>
    obtain ⟨v, hv, hlt⟩ := Operand.fits_iff.1 ho
    obtain ⟨vs, hvs, hfit⟩ := ih
    exact ⟨v :: vs, by simp [hv, hvs], .cons hlt hfit⟩

/-- Numbers stand for themselves. -/
theorem mapM_value_num (vars : HostVars) (vs : List Nat) :
    (vs.map Operand.num).mapM (Operand.value vars) = some vs := by
  induction vs with
  | nil => rfl
  | cons v vs ih => simp [Operand.value, ih]

namespace Machine

/-- Narrowing drops no bit of a value that fits (R75). -/
theorem toNat_ofNat_of_fit {width v : Nat} (h : v < 2 ^ width) : (BitVec.ofNat width v).toNat = v := by
  rw [BitVec.toNat_ofNat, Nat.mod_eq_of_lt h]

/-- Operand values that fit make a command that carries them. -/
theorem exists_buildInstr_of_fit {m : Mnemonic} {vs : List Nat} (h : FitWidths vs m.operandWidths) :
    ∃ i, buildInstr m vs = some i ∧ i.mnemonic = m ∧ operandNumbers i = vs := by
  cases m with
  | cellDef => obtain ⟨⟩ := h; exact ⟨_, rfl, rfl, rfl⟩
  | cellNew | fbDraw =>
    obtain _ | ⟨ha, _ | ⟨hb, _ | ⟨hc, ⟨⟩⟩⟩⟩ := h
    exact ⟨_, rfl, rfl, by
      simp only [operandNumbers, Cell.toHalf_ofHalf, toNat_ofNat_of_fit ha, toNat_ofNat_of_fit hb,
        toNat_ofNat_of_fit hc]⟩
  | cellSetch | cellSetbg | cellSetfg | cellDraw | portOut | uartDiv =>
    obtain _ | ⟨ha, _ | ⟨hb, ⟨⟩⟩⟩ := h
    exact ⟨_, rfl, rfl, by
      simp only [operandNumbers, Cell.toHalf_ofHalf, toNat_ofNat_of_fit ha, toNat_ofNat_of_fit hb]⟩

/-- A command's operands fit its fields. -/
theorem operandNumbers_fit (i : Instr) : FitWidths (operandNumbers i) i.mnemonic.operandWidths := by
  cases i <;>
    simp only [FitWidths, operandNumbers, Instr.mnemonic, Mnemonic.operandWidths, List.forall₂_cons,
      List.Forall₂.nil, BitVec.isLt, and_self]

/-- A command is built from its own mnemonic and operands. -/
theorem buildInstr_operandNumbers (i : Instr) : buildInstr i.mnemonic (operandNumbers i) = some i := by
  cases i <;> simp [buildInstr, operandNumbers, Instr.mnemonic]

/-- The line of a command is well formed. -/
theorem disassemble_wellFormed (vars : HostVars) (i : Instr) : (disassemble i).wellFormed vars = true := by
  rw [AsmLine.wellFormed_iff, disassemble, List.forall₂_map_left_iff]
  simpa [Operand.fits_iff, Operand.value] using operandNumbers_fit i

/-- The line of a command assembles to it. -/
theorem assemble_disassemble (vars : HostVars) (i : Instr) : assemble vars (disassemble i) = some i := by
  rw [assemble, disassemble, mapM_value_num]
  exact buildInstr_operandNumbers i

/-- Settles O47: a well-formed line's operands have values that fit, and values that fit survive the narrowing. -/
theorem assemblerLosesNothing : Obligations.AssemblerLosesNothing := by
  refine ⟨fun vars l h => ?_, fun vars i => ⟨disassemble_wellFormed vars i, assemble_disassemble vars i⟩⟩
  obtain ⟨vs, hvs, hfit⟩ := exists_values_of_fits (AsmLine.wellFormed_iff.1 h)
  obtain ⟨i, hi, hm, hnumbers⟩ := exists_buildInstr_of_fit hfit
  exact ⟨i, by simp [assemble, hvs, hi], hm, by rw [hvs, hnumbers]⟩


/-! ### A host that keeps results under names (R24, R63) -/

/-- The cell the host reads from a response that carries one (R52, R53). -/
@[simp] theorem Response.cell_cellValue (status : BitVec 32) (c : Cell) :
    Response.cell ⟨status, cellValue c⟩ = c := by
  have h : ((c.toHalf.setWidth 32).extractLsb' 0 16 : Half) = c.toHalf := by
    apply BitVec.eq_of_getLsbD_eq
    intro i hi
    simp [hi, show i < 32 by omega]
  rw [Response.cell, cellValue, h, Cell.ofHalf_toHalf]

/-- Under the names `h` the lines assemble to the commands, one for one, each under the names the responses before
it leave; `h'` are the names at the end. -/
inductive Spells (cfg : Config) : HostNames → List HostLine → List Instr → HostNames → Prop
  | nil (h : HostNames) : Spells cfg h [] [] h
  | cons {h h' : HostNames} {l : HostLine} {ls : List HostLine} {i : Instr} {is : List Instr}
      (hi : assemble h.cells l.line = some i) (hrest : Spells cfg (h.record l (instrAnswer cfg i)) ls is h') :
      Spells cfg h (l :: ls) (i :: is) h'

/-- The acts of some commands: of each its writes and its response (R39). -/
def commandActs (cfg : Config) (is : List Instr) : List Event :=
  is.flatMap fun i => instrWrites cfg i ++ [.resp (instrAnswer cfg i)]

/-- Carrying out acts does not look at the words to come. -/
theorem foldl_perform_withCommands (es : List Event) (s : State) (ws : List Word) :
    es.foldl State.perform { s with commands := ws } = { es.foldl State.perform s with commands := ws } := by
  induction es generalizing s with
  | nil => rfl
  | cons e es ih =>
    have he : State.perform { s with commands := ws } e = { s.perform e with commands := ws } := by
      cases e <;> rfl
    rw [List.foldl_cons, he, ih, List.foldl_cons]

/-- Issuing a word to an idle block, ahead of some others. -/
theorem step_issue {s : State} (hidle : s.seq = .idle) (w : Word) (rest : List Word) :
    step { s with commands := w :: rest } = .next ((s.takeCommand w rest).finishCommand w 0) :=
  step_take hidle rfl

/-- What a word does to an idle block does not depend on the words after it. -/
theorem step_withCommands {s t : State} {w : Word} {rest : List Word} (hidle : s.seq = .idle)
    (h : step { s with commands := w :: rest } = .next t) (rest' : List Word) :
    step { s with commands := w :: rest' } = .next { t with commands := rest' } := by
  rw [step_issue hidle] at h
  cases h
  rw [step_issue hidle]
  exact congrArg (fun u => Host.Outcome.next (State.respond u (wordAnswer s.cfg w).status (wordAnswer s.cfg w).value))
    (foldl_perform_withCommands _ (s.takeCommand w rest) rest')

/-- The writes of a command's word. -/
@[simp] theorem wordWrites_encode (cfg : Config) (i : Instr) : wordWrites cfg (encode i) = instrWrites cfg i := by
  rw [wordWrites, decode_encode]

/-- The answer of a command's word. -/
@[simp] theorem wordAnswer_encode (cfg : Config) (i : Instr) : wordAnswer cfg (encode i) = instrAnswer cfg i := by
  rw [wordAnswer, decode_encode]

/-- Issuing one command performs its acts. -/
theorem step_encode_performs {s t : State} {i : Instr} {rest : List Word} (hidle : s.seq = .idle)
    (h : step { s with commands := encode i :: rest } = .next t) :
    s.Performs (instrWrites s.cfg i ++ [.resp (instrAnswer s.cfg i)]) t := by
  rw [step_issue hidle] at h
  cases h
  simpa using (s.takeCommand_performs (encode i) rest).trans (State.finishCommand_performs _ (encode i) 0)

/-- A host whose lines spell some commands leaves the block as issuing their words leaves it, after the words that
stood in the stream before, and performs their acts. -/
theorem hostRun_of_spells {cfg : Config} {h h' : HostNames} {ls : List HostLine} {is : List Instr}
    (hspell : Spells cfg h ls is h') {s : State} (hcfg : s.cfg = cfg) (hidle : s.seq = .idle) :
    ∃ t, hostRun h ls s = some (h', t) ∧ t.seq = .idle ∧ t.commands = s.commands ∧
      s.Performs (commandActs cfg is) t ∧
      Host.Core.run Sys2Proof.core is.length { s with commands := commandWords is ++ s.commands } = .next t := by
  induction hspell generalizing s with
  | nil h => exact ⟨s, rfl, hidle, rfl, .refl s, rfl⟩
  | @cons h h' l ls i is hi hrest ih =>
    subst hcfg
    obtain ⟨u, hstep, hissue, huidle, hucommands, hucfg, -⟩ := hostIssue_next hidle hi (decode_encode i)
    obtain ⟨t, hrun, htidle, htcommands, hperforms, hcore⟩ := ih hucfg huidle
    refine ⟨t, (hostRun_cons hissue).trans hrun, htidle, htcommands.trans hucommands,
      (step_encode_performs hidle hstep).trans hperforms, ?_⟩
    rw [hucommands] at hcore
    exact (run_succ (step_withCommands hidle hstep _)).trans hcore

/-- A host with no word left to issue, whose lines spell some commands, does what issuing them does. -/
theorem hostRun_eq_run_of_spells {h h' : HostNames} {ls : List HostLine} {is : List Instr} {s : State}
    (hspell : Spells s.cfg h ls is h') (hidle : s.seq = .idle) (hempty : s.commands = []) :
    ∃ h' t, hostRun h ls s = some (h', t) ∧
      Host.Core.run Sys2Proof.core is.length { s with commands := commandWords is } = .next t := by
  obtain ⟨t, hrun, -, -, -, hcore⟩ := hostRun_of_spells hspell rfl hidle
  rw [hempty, List.append_nil] at hcore
  exact ⟨_, t, hrun, hcore⟩

/-! ### Lines that name cells -/

/-- The lines of CELL.PUT spell its commands (R121). -/
theorem spells_cellPut (cfg : Config) (h : HostNames) (offset : Half) (char fg bg : Byte) :
    ∃ h', Spells cfg h (cellPutLines offset char fg bg) (cellPut offset char fg bg) h' := by
  refine ⟨_, .cons ?_ (.cons ?_ (.nil _))⟩
  · simp [assemble, Operand.value, buildInstr]
  · simp [assemble, Operand.value, buildInstr, HostNames.record, keepUnder, instrAnswer]

/-- The lines of FB.CORNERS spell its commands (R124). -/
theorem spells_fbCorners (cfg : Config) (h : HostNames) : ∃ h', Spells cfg h fbCornersLines fbCorners h' := by
  refine ⟨_, .cons ?_ (.cons ?_ (.cons ?_ (.cons ?_ (.cons ?_ (.nil _)))))⟩ <;>
    simp [assemble, Operand.value, buildInstr, HostNames.record, keepUnder, instrAnswer]

/-! ### A cell composed by name, and its place in the grid -/

/-- A colour's nibble as a number (R56). -/
theorem nib_toNat (c : Byte) : (nib c).toNat = c.toNat % 16 := by
  rw [nib, BitVec.toNat_and]
  exact Nat.and_two_pow_sub_one_eq_mod c.toNat 4

/-- A pair of colours packed into one byte, as a number: the foreground is the high nibble (R54). -/
theorem attrByte_eq_ofNat (fg bg : Byte) : attrByte fg bg = BitVec.ofNat 8 (fg.toNat % 16 * 16 + bg.toNat % 16) := by
  have hfg : (nib fg <<< 4).toNat = (fg.toNat % 16) <<< 4 := by
    rw [BitVec.toNat_shiftLeft, nib_toNat, Nat.shiftLeft_eq,
      Nat.mod_eq_of_lt (show fg.toNat % 16 * 2 ^ 4 < 2 ^ 8 by omega)]
  apply BitVec.eq_of_toNat_eq
  rw [attrByte, BitVec.toNat_or, hfg, nib_toNat, ← Nat.shiftLeft_add_eq_or_of_lt (by omega), Nat.shiftLeft_eq,
    BitVec.toNat_ofNat]
  omega

/-- Recolouring both nibbles leaves nothing of the old colours. -/
theorem setForeground_setBackground_attr (cell : Cell) (bg fg : Byte) :
    (setForeground (setBackground cell bg) fg).attr = attrByte fg bg := by
  have hkept : ((cell.attr &&& 0xF0#8) ||| nib bg) &&& 0x0F#8 = nib bg := by
    rw [BitVec.and_or_distrib_right, BitVec.and_assoc, nib, BitVec.and_assoc]
    simp
  simp only [setForeground, setBackground, hkept, attrByte, BitVec.or_comm]

/-- A pair of the stated grid is accepted under either policy (R101, R107). -/
theorem gridRejects_eq_false_of_inGrid {row col : Half} (hrow : row.toNat ≤ 24) (hcol : col.toNat ≤ 79)
    (policy : BoundsPolicy) : gridRejects policy row col = false := by
  cases policy <;> simp [gridRejects, rowLimit, colLimit] <;> omega

/-- The lines of a host that constructs a cell, recolours its background and then its foreground, and draws it. -/
def recolourLines (char bg fg bg' fg' : Byte) (row col : Half) : List HostLine :=
  [⟨some "c0", ⟨.cellNew, [.num char.toNat, .num bg.toNat, .num fg.toNat]⟩, none⟩,
   ⟨some "c1", ⟨.cellSetbg, [.name "c0", .num bg'.toNat]⟩, none⟩,
   ⟨some "c2", ⟨.cellSetfg, [.name "c1", .num fg'.toNat]⟩, none⟩,
   ⟨none, ⟨.fbDraw, [.num row.toNat, .num col.toNat, .name "c2"]⟩, some "st"⟩]

/-- The commands that compute the cell. -/
def recolourCommands (char bg fg bg' fg' : Byte) : List Instr :=
  [.cellNew char bg fg, .cellSetbg (newCell char bg fg) bg',
   .cellSetfg (setBackground (newCell char bg fg) bg') fg']

/-- The host's lines spell these commands and the draw of the recoloured cell; the status of an accepted draw is
kept under its name. -/
theorem spells_recolourLines {cfg : Config} (h : HostNames) (char bg fg bg' fg' : Byte) {row col : Half}
    (haccepted : gridRejects cfg.policy row col = false) :
    ∃ cells, Spells cfg h (recolourLines char bg fg bg' fg' row col)
      (recolourCommands char bg fg bg' fg' ++
        [.fbDraw row col (setForeground (setBackground (newCell char bg fg) bg') fg')])
      ⟨cells, ("st", 0#32) :: h.statuses⟩ := by
  have hstatus : (instrAnswer cfg (.fbDraw row col
      (setForeground (setBackground (newCell char bg fg) bg') fg'))).status = 0#32 := by
    simp [instrAnswer, haccepted, statusOk]
  rw [← hstatus]
  refine ⟨_, .cons ?_ (.cons ?_ (.cons ?_ (.cons ?_ (.nil _))))⟩ <;>
    simp [assemble, Operand.value, buildInstr, HostNames.record, keepUnder, instrAnswer]

/-- What a byte of the buffer reads as after some acts. -/
theorem State.Performs.buffer {s t : State} {es : List Event} (h : s.Performs es t) {i : Nat} (hi : i < 4000) :
    t.buffer i = (lastMemWrite es (fbAddr s.cfg i)).or (s.buffer i) := by
  rw [State.buffer, h.cfg, h.readInside _ (by simpa using hi), State.buffer]

/-- After some commands and an accepted draw inside the region, the buffer holds the drawn cell. -/
theorem State.Performs.buffer_of_fbDraw {s t : State} {is : List Instr} {row col : Half} {cell : Cell}
    (h : s.Performs (commandActs s.cfg (is ++ [.fbDraw row col cell])) t)
    (haccepted : gridRejects s.cfg.policy row col = false) (hinside : gridOffset row col + 1 < 4000) :
    t.buffer (gridOffset row col) = some cell.char ∧ t.buffer (gridOffset row col + 1) = some cell.attr := by
  have hacts : commandActs s.cfg (is ++ [.fbDraw row col cell]) = commandActs s.cfg is ++
      (cellWrites s.cfg cell (gridOffset row col) ++ [.resp (instrAnswer s.cfg (.fbDraw row col cell))]) := by
    simp [commandActs, instrWrites, haccepted]
  rw [hacts] at h
  rw [h.buffer (by omega), h.buffer hinside, lastMemWrite_append, lastMemWrite_append]
  simp [cellWrites, lastMemWrite, latestMem]

/-- Settles O55: the lines of each host spell commands, and the last of the composing host's is a draw in the grid. -/
theorem namedResultsCarryCells : Obligations.NamedResultsCarryCells := by
  refine ⟨?_, ?_, ?_⟩
  · intro h offset char fg bg s hidle hempty
    obtain ⟨h', hspell⟩ := spells_cellPut s.cfg h offset char fg bg
    exact hostRun_eq_run_of_spells hspell hidle hempty
  · intro h s hidle hempty
    obtain ⟨h', hspell⟩ := spells_fbCorners s.cfg h
    exact hostRun_eq_run_of_spells hspell hidle hempty
  · intro h char bg fg bg' fg' row col s hidle hrow hcol
    have haccepted := gridRejects_eq_false_of_inGrid hrow hcol s.cfg.policy
    have hoffset : gridOffset row col = (row.toNat * 80 + col.toNat) * 2 := by unfold gridOffset; omega
    obtain ⟨cells, hspell⟩ := spells_recolourLines h char bg fg bg' fg' haccepted
    obtain ⟨t, hrun, hseq, hcommands, hperforms, -⟩ := hostRun_of_spells hspell rfl hidle
    have hbytes := hperforms.buffer_of_fbDraw haccepted (by omega)
    rw [setForeground_setBackground_attr, attrByte_eq_ofNat, hoffset] at hbytes
    exact ⟨_, t, hrun, hseq, hcommands, rfl, hbytes⟩

end Machine
end Sys2Proof

/-! PROOFS of the narrowing statements (40_fixed_width.md): the unsigned and the signed reading of the narrowing law,
and the accessor through a wider container. -/

namespace Sys2Proof.Machine

/-! ### The unsigned reading (R70) -/

/-- The kept bits are the residue modulo `2^W` (R70). -/
@[simp] theorem toNat_narrow (width v : Nat) : (narrow width v).toNat = v % 2 ^ width :=
  BitVec.toNat_ofNat v width

/-- Two values narrow to the same bits exactly when they are congruent modulo `2^W`. -/
theorem narrow_eq_narrow_iff {width a b : Nat} : narrow width a = narrow width b ↔ a ≡ b [MOD 2 ^ width] := by
  rw [← BitVec.toNat_inj, toNat_narrow, toNat_narrow, Nat.ModEq]

/-- The value of the kept bits is congruent to the value narrowed. -/
theorem toNat_narrow_modEq (width v : Nat) : (narrow width v).toNat ≡ v [MOD 2 ^ width] := by
  rw [toNat_narrow]
  exact Nat.mod_modEq v _

/-- Settles O7: narrowed values are equal when congruent, and congruence passes through sums and products. -/
theorem narrowingKeepsLowBits : Obligations.NarrowingKeepsLowBits := by
  refine ⟨fun width v => ⟨toNat_narrow width v, (narrow width v).isLt, toNat_ofNat_of_fit, ?_⟩,
    fun width => ⟨?_, ?_⟩, fun width a b => ⟨?_, ?_⟩, ?_, by decide⟩
  · exact narrow_eq_narrow_iff.mpr (toNat_narrow_modEq width v)
  · rw [toNat_narrow, Nat.mod_self]
  · exact toNat_ofNat_of_fit (Nat.sub_lt (Nat.two_pow_pos width) one_pos)
  · exact narrow_eq_narrow_iff.mpr ((toNat_narrow_modEq width a).add (toNat_narrow_modEq width b)).symm
  · exact narrow_eq_narrow_iff.mpr ((toNat_narrow_modEq width a).mul (toNat_narrow_modEq width b)).symm
  · exact fun n width x => (BitVec.ofNat_toNat width x).symm

/-! ### The signed reading (R71) -/

/-- The kept bits of a signed value are its non-negative residue modulo `2^W` (R71). -/
theorem toNat_narrowSigned (width : Nat) (v : Int) : ((narrowSigned width v).toNat : Int) = v % 2 ^ width := by
  rw [narrowSigned, BitVec.toNat_ofInt, Int.toNat_of_nonneg (Int.emod_nonneg _ (by positivity)),
    Nat.cast_pow, Nat.cast_ofNat]

/-- Bits read as two's complement stand for their number, less `2^W` when the top bit is 1 (R71). -/
theorem readSigned_eq_ite_topBit {width : Nat} (bits : BitVec width) :
    readSigned bits = if bits.getLsbD (width - 1) then (bits.toNat : Int) - 2 ^ width else bits.toNat := by
  rw [readSigned, BitVec.toInt_eq_msb_cond, BitVec.msb_eq_getLsbD_last, Nat.cast_pow, Nat.cast_ofNat]

/-- On a non-negative value both readings keep the same bits. -/
theorem narrowSigned_natCast (width v : Nat) : narrowSigned width (v : Int) = narrow width v :=
  BitVec.ofInt_natCast width v

/-- Minus one narrows to all ones. -/
theorem narrowSigned_neg_one (width : Nat) : narrowSigned width (-1) = BitVec.allOnes width := by
  rw [narrowSigned, BitVec.ofInt_neg, BitVec.ofInt_ofNat, BitVec.neg_one_eq_allOnes]

/-- Settles O8: the residue, its two's complement reading, and minus one as all ones. -/
theorem signedNarrowingKeepsTheSameBits : Obligations.SignedNarrowingKeepsTheSameBits := by
  refine ⟨fun width v _ => ⟨toNat_narrowSigned width v, readSigned_eq_ite_topBit _⟩, narrowSigned_natCast,
    by decide, by decide, fun width hwidth => ?_, by decide, by decide⟩
  rw [narrowSigned_neg_one, readSigned, BitVec.toInt_allOnes]
  exact if_pos hwidth

/-! ### The accessor (R72) -/

/-- Settles O9: the value of the bits fits in the wider container, in either reading. -/
theorem wideningReadsTheSameValue : Obligations.WideningReadsTheSameValue :=
  fun _ _ _ hle => ⟨BitVec.toNat_setWidth_of_le hle, BitVec.toInt_signExtend_of_le hle⟩

end Sys2Proof.Machine

/-! PROOFS of the port statements (41_port.md): a command word written as the sum of its fields, and the next state
of a command that writes no memory. -/

namespace Sys2Proof

/-! ### A word as the sum of its fields (R50, R51) -/

/-- The number of a field put at a bit position, bits beyond the word dropped. -/
theorem place_eq_ofNat (start : Nat) {width : Nat} (v : BitVec width) :
    place start v = BitVec.ofNat 64 (v.toNat * 2 ^ start) := by
  rw [← BitVec.toNat_inj, place, BitVec.toNat_shiftLeft, BitVec.toNat_setWidth, BitVec.toNat_ofNat,
    Nat.shiftLeft_eq, Nat.mod_mul_mod]

/-- Putting a field below the bits of a word adds the field's number to the word's. -/
theorem ofNat_or_place {m start width : Nat} (v : BitVec width) (h : 2 ^ (start + width) ∣ m) :
    BitVec.ofNat 64 m ||| place start v = BitVec.ofNat 64 (m + v.toNat * 2 ^ start) := by
  obtain ⟨k, rfl⟩ := h
  have hfield : v.toNat * 2 ^ start < 2 ^ (start + width) := by
    rw [pow_add, mul_comm]
    exact Nat.mul_lt_mul_of_pos_left v.isLt (Nat.two_pow_pos start)
  rw [place_eq_ofNat, ← BitVec.ofNat_or, Nat.two_pow_add_eq_or_of_lt hfield]

/-- PORT.OUT's word as the sum of its fields (format P of R51). -/
theorem encode_portOut_eq_ofNat (port : Half) (value : Byte) :
    encode (.portOut port value) = BitVec.ofNat 64 (0x08 * 2 ^ 56 + port.toNat * 2 ^ 8 + value.toNat) := by
  rw [encode, place_eq_ofNat 56, ofNat_or_place port (by decide), ofNat_or_place value (by omega)]
  simp

namespace Machine

/-! ### Commands that write no memory -/

/-- Acts that write no memory, then a response: only the sequencer and the records change. -/
theorem respond_foldl_perform_of_memPart {es : List Event} (h : ∀ e ∈ es, e.memPart = none) (s : State)
    (r : Response) :
    (es.foldl State.perform s).respond r.status r.value =
      { s with seq := .idle, issued := s.issued ++ (es ++ [.resp r]) } := by
  induction es generalizing s with
  | nil => rfl
  | cons e es ih =>
    rw [List.foldl_cons, ih fun f hf => h f (List.mem_cons_of_mem e hf)]
    cases e with
    | mem a v => exact absurd (h _ List.mem_cons_self) (by simp)
    | port p v => simp [State.portWrite]
    | resp r => simp [State.respond]

/-- A command whose rule lists no memory write issues its writes and its response, and changes nothing else. -/
theorem exec_of_no_memWrite {i : Instr} {s : State} (h : ∀ e ∈ instrWrites s.cfg i, e.memPart = none) :
    exec i s = .next { s with
      seq := .idle
      issued := s.issued ++ (instrWrites s.cfg i ++ [.resp (instrAnswer s.cfg i)]) } := by
  rw [exec_eq_writes, respond_foldl_perform_of_memPart h]

/-- Settles O24: the word is PORT.OUT's encoding, and the command's only write is to a port. -/
theorem portOutWritesOnePort : Obligations.PortOutWritesOnePort := by
  intro port value s
  constructor
  · rw [← encode_portOut_eq_ofNat, decode_encode]
  · exact exec_of_no_memWrite (List.forall_mem_singleton.mpr (Event.memPart_port port value))

end Machine
end Sys2Proof

/-! PROOFS of the cell statements (42_cell.md): the command words that carry a cell, a colour byte as its two
nibbles, the commands that write nothing, and the two byte writes of a draw. -/

namespace Sys2Proof

/-! ### A word that carries a cell (formats K, M and D of R51) -/

/-- A cell's 16-bit field as a number: the colour byte is the high byte (R52). -/
theorem Cell.toHalf_toNat (cell : Cell) : cell.toHalf.toNat = cell.attr.toNat * 256 + cell.char.toNat := by
  rw [Cell.toHalf, BitVec.toNat_append, ← Nat.shiftLeft_add_eq_or_of_lt cell.char.isLt, Nat.shiftLeft_eq]

/-- A word that is an encoding decodes to what it encodes. -/
theorem decode_of_encode_eq {i : Instr} {w : Word} (h : encode i = w) : decode w = .ok i :=
  h ▸ decode_encode i

/-- CELL.NEW's word as the sum of its fields (format K of R51). -/
theorem encode_cellNew_eq_ofNat (char bg fg : Byte) :
    encode (.cellNew char bg fg) =
      BitVec.ofNat 64 (0x01 * 2 ^ 56 + fg.toNat * 2 ^ 16 + bg.toNat * 2 ^ 8 + char.toNat) := by
  rw [encode, place_eq_ofNat 56, ofNat_or_place fg (by decide), ofNat_or_place bg (by omega),
    ofNat_or_place char (by omega)]
  simp

/-- An opcode, an operand and a cell in their places as the sum of their fields (formats M and D of R51). -/
theorem place_opcode_operand_cell (op : Byte) {width : Nat} (operand : BitVec width) (h : 16 + width ≤ 56)
    (cell : Cell) :
    place 56 op ||| place 16 operand ||| place 0 cell.toHalf =
      BitVec.ofNat 64 (op.toNat * 2 ^ 56 + operand.toNat * 2 ^ 16 + cell.attr.toNat * 2 ^ 8 + cell.char.toNat) := by
  rw [place_eq_ofNat 56, ofNat_or_place operand ((pow_dvd_pow 2 h).trans (Nat.dvd_mul_left _ _)),
    ofNat_or_place cell.toHalf (by omega), Cell.toHalf_toNat]
  simp [Nat.add_assoc]

namespace Machine

/-- A cell as a response value, as a number (R52, R53). -/
theorem cellValue_eq_ofNat (cell : Cell) :
    cellValue cell = BitVec.ofNat 32 (cell.attr.toNat * 256 + cell.char.toNat) := by
  rw [cellValue, ← BitVec.ofNat_toNat, Cell.toHalf_toNat]

/-! ### A colour byte is its two nibbles (R54, R56) -/

/-- A packed pair of colours as a number. -/
theorem attrByte_toNat (fg bg : Byte) : (attrByte fg bg).toNat = fg.toNat % 16 * 16 + bg.toNat % 16 := by
  rw [attrByte_eq_ofNat, BitVec.toNat_ofNat]
  omega

/-- The foreground nibble as a number. -/
theorem foreground_toNat (attr : Byte) : (foreground attr).toNat = attr.toNat / 16 := by
  rw [foreground, BitVec.extractLsb'_toNat, Nat.shiftRight_eq_div_pow]
  omega

/-- The background nibble as a number. -/
theorem background_toNat (attr : Byte) : (background attr).toNat = attr.toNat % 16 := by
  rw [background, BitVec.extractLsb'_toNat, Nat.shiftRight_zero]

/-- Setting the foreground packs its nibble over the low nibble there was (R90). -/
theorem setForeground_attr (cell : Cell) (color : Byte) :
    (setForeground cell color).attr = attrByte color cell.attr :=
  BitVec.or_comm _ _

/-- Setting the background packs its nibble under the high nibble there was (R89). -/
theorem setBackground_attr (cell : Cell) (color : Byte) :
    (setBackground cell color).attr = attrByte (cell.attr >>> 4) color := by
  have hkept : cell.attr &&& 0xF0#8 = nib (cell.attr >>> 4) <<< 4 := by
    rw [nib, BitVec.shiftLeft_and_distrib, BitVec.shiftLeft_ushiftRight, BitVec.and_assoc]
    rfl
  rw [setBackground, hkept, attrByte]

/-- The colour byte after setting the foreground, as a number. -/
theorem setForeground_attr_toNat (cell : Cell) (color : Byte) :
    (setForeground cell color).attr.toNat = color.toNat % 16 * 16 + cell.attr.toNat % 16 := by
  rw [setForeground_attr, attrByte_toNat]

/-- The colour byte after setting the background, as a number. -/
theorem setBackground_attr_toNat (cell : Cell) (color : Byte) :
    (setBackground cell color).attr.toNat = cell.attr.toNat / 16 * 16 + color.toNat % 16 := by
  rw [setBackground_attr, attrByte_toNat, BitVec.toNat_ushiftRight, Nat.shiftRight_eq_div_pow]
  omega

@[simp] theorem foreground_attrByte (fg bg : Byte) : foreground (attrByte fg bg) = background fg := by
  rw [← BitVec.toNat_inj, foreground_toNat, attrByte_toNat, background_toNat]
  omega

@[simp] theorem background_attrByte (fg bg : Byte) : background (attrByte fg bg) = background bg := by
  rw [← BitVec.toNat_inj, background_toNat, attrByte_toNat, background_toNat]
  omega

/-- The low nibble of the shifted byte is its high nibble. -/
@[simp] theorem background_shiftRight (attr : Byte) : background (attr >>> 4) = foreground attr := by
  rw [← BitVec.toNat_inj, background_toNat, foreground_toNat, BitVec.toNat_ushiftRight, Nat.shiftRight_eq_div_pow]
  omega

/-- A cell is its character and its two nibbles. -/
theorem cell_eq_iff {c d : Cell} :
    c = d ↔ c.char = d.char ∧ foreground c.attr = foreground d.attr ∧ background c.attr = background d.attr := by
  constructor
  · rintro rfl
    exact ⟨rfl, rfl, rfl⟩
  · rintro ⟨hchar, hfg, hbg⟩
    rw [← BitVec.toNat_inj, foreground_toNat, foreground_toNat] at hfg
    rw [← BitVec.toNat_inj, background_toNat, background_toNat] at hbg
    have hattr : c.attr = d.attr := BitVec.eq_of_toNat_eq (by omega)
    exact congrArg₂ Cell.mk hchar hattr

/-! ### What each setter keeps and sets (R86, R88 to R90) -/

@[simp] theorem setBackground_char (c : Cell) (x : Byte) : (setBackground c x).char = c.char := rfl
@[simp] theorem setForeground_char (c : Cell) (x : Byte) : (setForeground c x).char = c.char := rfl
@[simp] theorem setChar_char (c : Cell) (x : Byte) : (setChar c x).char = x := rfl
@[simp] theorem setChar_attr (c : Cell) (x : Byte) : (setChar c x).attr = c.attr := rfl
@[simp] theorem newCell_char (char bg fg : Byte) : (newCell char bg fg).char = char := rfl
@[simp] theorem newCell_attr (char bg fg : Byte) : (newCell char bg fg).attr = attrByte fg bg := rfl

@[simp] theorem foreground_setBackground (c : Cell) (x : Byte) :
    foreground (setBackground c x).attr = foreground c.attr := by
  rw [setBackground_attr, foreground_attrByte, background_shiftRight]

@[simp] theorem background_setBackground (c : Cell) (x : Byte) :
    background (setBackground c x).attr = background x := by
  rw [setBackground_attr, background_attrByte]

@[simp] theorem foreground_setForeground (c : Cell) (x : Byte) :
    foreground (setForeground c x).attr = background x := by
  rw [setForeground_attr, foreground_attrByte]

@[simp] theorem background_setForeground (c : Cell) (x : Byte) :
    background (setForeground c x).attr = background c.attr := by
  rw [setForeground_attr, background_attrByte]

/-- Settles O15: each setter sets one of a cell's three parts and keeps the other two. -/
theorem nibblesAreIndependent : Obligations.NibblesAreIndependent := by
  intro c x y ch bg fg
  refine ⟨foreground_setBackground c x, background_setForeground c x, rfl, rfl, rfl, ?_, ?_, rfl, ?_, ?_⟩ <;>
    simp [cell_eq_iff]

/-! ### The cell-value commands (R86 to R90, R94) -/

/-- A command whose rule lists no write answers, and changes nothing else. -/
theorem exec_of_no_writes {i : Instr} {s : State} (h : instrWrites s.cfg i = []) :
    exec i s = .next { s with seq := .idle, issued := s.issued ++ [.resp (instrAnswer s.cfg i)] } := by
  rw [exec_of_no_memWrite (by simp [h]), h, List.nil_append]

/-- The five cell-value commands write nothing, and answer from their operands alone. -/
theorem instrWrites_instrAnswer_of_cellValue {i : Instr}
    (h : i.mnemonic ∈ [.cellNew, .cellDef, .cellSetch, .cellSetbg, .cellSetfg]) (cfg cfg' : Config) :
    instrWrites cfg i = [] ∧ instrAnswer cfg i = instrAnswer cfg' i := by
  cases i
  case cellDraw | fbDraw | portOut | uartDiv => simp [Instr.mnemonic] at h
  all_goals exact ⟨rfl, rfl⟩

/-- Only the two draws list a memory write. -/
theorem memPart_of_mem_instrWrites {i : Instr} (hcell : i.mnemonic ≠ .cellDraw) (hgrid : i.mnemonic ≠ .fbDraw)
    (cfg : Config) : ∀ e ∈ instrWrites cfg i, e.memPart = none := by
  cases i
  case cellDraw => exact absurd rfl hcell
  case fbDraw => exact absurd rfl hgrid
  all_goals simp [instrWrites]

/-- Settles O16: the response of a cell-value command is the one it gives on this hardware; the other commands that
are no draw list no memory write. -/
theorem cellValueCommandsArePure : Obligations.CellValueCommandsArePure := by
  refine ⟨fun i hi => ⟨instrAnswer Config.thisHardware i, fun s => ?_⟩, fun i hcell hgrid s => ?_⟩
  · obtain ⟨hwrites, hanswer⟩ := instrWrites_instrAnswer_of_cellValue hi s.cfg Config.thisHardware
    rw [exec_of_no_writes hwrites, hanswer]
  · have hnone := memPart_of_mem_instrWrites hcell hgrid s.cfg
    refine ⟨_, exec_of_no_memWrite hnone, rfl, ?_⟩
    rw [State.mtrace_of_issued (s := s) rfl]
    simpa using hnone

/-- Settles O10: the answered cell's colour byte is the packed pair of colours. -/
theorem cellNewAnswersConstructedCell : Obligations.CellNewAnswersConstructedCell := by
  intro char bg fg s
  refine ⟨decode_of_encode_eq (encode_cellNew_eq_ofNat char bg fg), ?_⟩
  rw [exec_of_no_writes rfl, instrAnswer, cellValue_eq_ofNat, newCell_attr, attrByte_toNat]
  rfl

/-- Settles O11: the word is CELL.DEF's encoding, and the default cell's value is 0x2054. -/
theorem cellDefAnswersSentinel : Obligations.CellDefAnswersSentinel :=
  fun _ => ⟨decode_of_encode_eq (i := .cellDef) (by decide), exec_of_no_writes rfl⟩

/-- Settles O12: the answered cell keeps the colour byte. -/
theorem cellSetchReplacesCharacter : Obligations.CellSetchReplacesCharacter := by
  intro cell c s
  refine ⟨decode_of_encode_eq (place_opcode_operand_cell 0x03#8 c (by decide) cell), ?_⟩
  rw [exec_of_no_writes rfl, instrAnswer, cellValue_eq_ofNat]
  rfl

/-- Settles O13: the answered cell's colour byte keeps its high nibble. -/
theorem cellSetbgReplacesLowNibble : Obligations.CellSetbgReplacesLowNibble := by
  intro cell color s
  refine ⟨decode_of_encode_eq (place_opcode_operand_cell 0x04#8 color (by decide) cell), ?_⟩
  rw [exec_of_no_writes rfl, instrAnswer, cellValue_eq_ofNat, setBackground_attr_toNat]
  rfl

/-- Settles O14: the answered cell's colour byte keeps its low nibble. -/
theorem cellSetfgReplacesHighNibble : Obligations.CellSetfgReplacesHighNibble := by
  intro cell color s
  refine ⟨decode_of_encode_eq (place_opcode_operand_cell 0x05#8 color (by decide) cell), ?_⟩
  rw [exec_of_no_writes rfl, instrAnswer, cellValue_eq_ofNat, setForeground_attr_toNat]
  rfl

/-! ### Drawing a cell (R91) -/

/-- CELL.DRAW is the cell writer, and a response (R91). -/
theorem exec_cellDraw (cell : Cell) (offset : Half) (s : State) :
    exec (.cellDraw cell offset) s = .next ((s.drawCell cell offset.toNat).respond statusOk 0#32) := rfl

/-- The cell writer's second byte leaves the region first, at 3999. -/
theorem State.drawCell_mark (s : State) (cell : Cell) (offset : Nat) :
    (s.drawCell cell offset).leftRegion = (s.leftRegion || decide (3999 ≤ offset)) := by
  have hmark : (!decide (offset < 4000) || !decide (offset + 1 < 4000)) = decide (3999 ≤ offset) := by
    rw [← decide_not, ← decide_not, ← Bool.decide_or, decide_eq_decide]
    omega
  rw [State.drawCell_leftRegion, inRegion_fbAddr, inRegion_fbAddr, Bool.or_assoc, hmark]

/-- Settles O17: the cell writer's records, mark and bytes; the response after them is only recorded. -/
theorem cellDrawWritesTwoBytes : Obligations.CellDrawWritesTwoBytes := by
  intro cell offset s
  refine ⟨decode_of_encode_eq (place_opcode_operand_cell 0x06#8 offset (by decide) cell), _,
    exec_cellDraw cell offset s, rfl, rfl, rfl, ?issued, ?mark, ?char, ?attr, ?frame⟩
  case issued => simp [fbAddr, statusOk, Nat.add_assoc]
  case mark => exact State.drawCell_mark s cell offset.toNat
  case char => exact fun h => (State.buffer_drawCell s cell offset.toNat offset.toNat).trans (by simp [h])
  case attr => exact fun h => (State.buffer_drawCell s cell offset.toNat (offset.toNat + 1)).trans (by simp [h])
  case frame => exact fun a h1 h2 => State.read_drawCell_other s cell h1 h2

/-! ### Drawing a cell twice (R91 (e)) -/

/-- A byte written again keeps the later value alone, in canonical form or not. -/
@[simp] theorem Memory.write_write_same (m : Memory) (a : Nat) (v w : Byte) :
    (m.write a v).write a w = m.write a w := by
  induction m with
  | nil => simp [Memory.write]
  | cons c rest ih =>
    rcases Nat.lt_trichotomy a c.1 with h | h | h
    · simp [Memory.write, h]
    · simp [Memory.write, h]
    · simp [Memory.write, h.not_gt, h.ne', ih]

/-- Writes to different bytes commute, in canonical form or not. -/
theorem Memory.write_write_comm (m : Memory) {a b : Nat} (v w : Byte) (hab : a ≠ b) :
    (m.write a v).write b w = (m.write b w).write a v := by
  wlog hlt : a < b generalizing a b v w
  · exact (this w v hab.symm (hab.lt_or_gt.resolve_left hlt)).symm
  induction m with
  | nil => simp [Memory.write, hlt, hlt.not_gt, hlt.ne']
  | cons c rest ih =>
    rcases Nat.lt_trichotomy a c.1 with ha | ha | ha
    · rcases Nat.lt_trichotomy b c.1 with hb | hb | hb
      · simp [Memory.write, ha, hb, hlt, hlt.not_gt, hlt.ne']
      · simp [Memory.write, ← hb, hlt, hlt.not_gt, hlt.ne']
      · simp [Memory.write, ha, hlt.not_gt, hlt.ne', hb.not_gt, hb.ne']
    · simp [Memory.write, ← ha, hlt.not_gt, hlt.ne']
    · have hb : c.1 < b := ha.trans hlt
      simp [Memory.write, ha.not_gt, ha.ne', hb.not_gt, hb.ne', ih]

/-- Drawing a cell where it was just drawn leaves memory as it is: each write in the
region repeats one of the two before it, and beyond the region neither changes memory. -/
theorem State.drawCell_drawCell_mem (s : State) (cell : Cell) (offset : Nat) :
    ((s.drawCell cell offset).drawCell cell offset).mem = (s.drawCell cell offset).mem := by
  have hrepeat (m : Memory) (v w : Byte) :
      ((m.write (fbAddr s.cfg offset) v).write (fbAddr s.cfg (offset + 1)) w).write (fbAddr s.cfg offset) v =
        (m.write (fbAddr s.cfg offset) v).write (fbAddr s.cfg (offset + 1)) w := by
    rw [Memory.write_write_comm _ _ _ (by simp), Memory.write_write_same]
  obtain hboth | rfl | hnone : offset + 1 < 4000 ∨ offset = 3999 ∨ 4000 ≤ offset := by omega
  · simp [State.drawCell, hboth, (Nat.lt_succ_self offset).trans hboth, hrepeat]
  · simp [State.drawCell]
  · simp [State.drawCell, hnone.not_gt, (hnone.trans (Nat.le_succ offset)).not_gt]

/-- Settles O18: the second draw repeats the writes of the first, in the region or out of it. -/
theorem drawingTwiceChangesMemoryOnce : Obligations.DrawingTwiceChangesMemoryOnce := by
  intro cell offset s
  refine ⟨_, _, exec_cellDraw cell offset s, exec_cellDraw cell offset _, ?_, ?_⟩
  · exact State.drawCell_drawCell_mem s cell offset.toNat
  · simp only [State.respond_leftRegion, State.drawCell_mark, Bool.or_assoc, Bool.or_self]

end Machine
end Sys2Proof

/-! PROOFS of the framebuffer statements (43_framebuffer.md): the grid draw's word, the bounds test and the offset as
numbers, the rejected draw, what an accepted draw leaves and where it lands, and commands without memory. -/

namespace Sys2Proof

/-- FB.DRAW's word as the sum of its fields (format G of R51). -/
theorem encode_fbDraw_eq_ofNat (row col : Half) (cell : Cell) :
    encode (.fbDraw row col cell) =
      BitVec.ofNat 64 (0x07 * 2 ^ 56 + row.toNat * 2 ^ 32 + col.toNat * 2 ^ 16 + cell.attr.toNat * 2 ^ 8 +
        cell.char.toNat) := by
  rw [encode, place_eq_ofNat 56, ofNat_or_place row (by decide), ofNat_or_place col (by omega),
    ofNat_or_place cell.toHalf (by omega), Cell.toHalf_toNat]
  simp [Nat.add_assoc]

namespace Machine

/-! ### The bounds test and the offset (R101, R102, R107) -/

/-- The test rejects a pair exactly when one coordinate is beyond its limit (R101). -/
theorem gridRejects_iff {policy : BoundsPolicy} {row col : Half} :
    gridRejects policy row col = true ↔ rowLimit policy < row.toNat ∨ colLimit policy < col.toNat := by
  simp [gridRejects]

/-- The test accepts a pair exactly when both coordinates are within their limits (R101). -/
theorem gridRejects_eq_false_iff {policy : BoundsPolicy} {row col : Half} :
    gridRejects policy row col = false ↔ row.toNat ≤ rowLimit policy ∧ col.toNat ≤ colLimit policy := by
  simp [gridRejects]

/-- Every offset of the grid is even (R102). -/
theorem gridOffset_even (row col : Half) : gridOffset row col % 2 = 0 := by
  unfold gridOffset
  omega

/-- Columns up to 80 with one offset: the rows differ by at most one, and by one only through column 80. -/
theorem eq_or_column80_of_gridOffset_eq {row col row' col' : Half} (hcol : col.toNat ≤ 80) (hcol' : col'.toNat ≤ 80)
    (h : gridOffset row col = gridOffset row' col') :
    (row = row' ∧ col = col') ∨
      (col.toNat = 80 ∧ col'.toNat = 0 ∧ row'.toNat = row.toNat + 1) ∨
      (col'.toNat = 80 ∧ col.toNat = 0 ∧ row.toNat = row'.toNat + 1) := by
  rw [← BitVec.toNat_inj, ← BitVec.toNat_inj]
  unfold gridOffset at h
  omega

/-- Settles O22: rows are 160 apart, and a column up to 80 adds at most 160, the whole of it only at column 80. -/
theorem offsetsMeetOnlyThroughColumn80 : Obligations.OffsetsMeetOnlyThroughColumn80 := by
  refine ⟨fun row col h => ⟨rfl, gridOffset_le_of_accepted h, gridOffset_even row col⟩, by decide, by decide,
    fun row col row' col' h h' => ?_, fun row row' hrow => ?_⟩
  · obtain ⟨-, hcol⟩ := gridRejects_eq_false_iff.1 h
    obtain ⟨-, hcol'⟩ := gridRejects_eq_false_iff.1 h'
    exact eq_or_column80_of_gridOffset_eq hcol hcol'
  · rw [gridOffset, gridOffset, hrow, Nat.add_mul]
    rfl

/-! ### The rejected draw (R103, R104) -/

/-- A rejected grid draw answers ST_RANGE, and changes nothing else. -/
theorem exec_fbDraw_rejected {row col : Half} {cell : Cell} {s : State}
    (h : gridRejects s.cfg.policy row col = true) :
    exec (.fbDraw row col cell) s =
      .next { s with seq := .idle, issued := s.issued ++ [.resp ⟨0xFFFFFFFF#32, 0#32⟩] } :=
  execFbDraw_rejected h

/-- Settles O21: the draw is executed with its word taken, and leaves the sequencer idle, as it was before. -/
theorem rejectedDrawLeavesOnlyItsResponse : Obligations.RejectedDrawLeavesOnlyItsResponse := by
  intro s w rest row col cell hidle hc hdecode hrejects
  rw [step_command hidle hc hdecode, exec_fbDraw_rejected (by simpa using hrejects), State.takeCommand, hidle]

/-! ### The accepted draw (R103) -/

/-- `t` is `s` after a cell was drawn at an even offset and STATUS_OK answered: no offset leaves one byte of the
cell in the region and the other beyond it. -/
structure State.Draws (s : State) (cell : Cell) (offset : Nat) (t : State) : Prop where
  cfg : t.cfg = s.cfg
  commands : t.commands = s.commands
  seq : t.seq = .idle
  issued : t.issued = s.issued ++ [.mem (s.cfg.fbBase + offset) cell.char,
    .mem (s.cfg.fbBase + offset + 1) cell.attr, .resp ⟨0#32, 0#32⟩]
  mark : t.leftRegion = (s.leftRegion || decide (4000 ≤ offset))
  inside : offset < 4000 → t.buffer offset = some cell.char ∧ t.buffer (offset + 1) = some cell.attr
  beyond : 4000 ≤ offset → t.mem = s.mem
  frame : ∀ a, a ≠ s.cfg.fbBase + offset → a ≠ s.cfg.fbBase + offset + 1 → t.mem.read a = s.mem.read a

/-- The cell writer at an even offset, and its response. -/
theorem State.drawCell_respond_draws (s : State) (cell : Cell) {offset : Nat} (heven : offset % 2 = 0) :
    s.Draws cell offset ((s.drawCell cell offset).respond statusOk 0#32) where
  cfg := rfl
  commands := rfl
  seq := rfl
  issued := by simp [fbAddr, statusOk, Nat.add_assoc]
  mark := by
    have hsame : 3999 ≤ offset ↔ 4000 ≤ offset := by omega
    rw [State.respond_leftRegion, State.drawCell_mark, decide_eq_decide.2 hsame]
  inside h := by
    have hattr : offset + 1 < 4000 := by omega
    simp [State.buffer_drawCell, h, hattr]
  beyond h := by
    have hattr : ¬ offset + 1 < 4000 := by omega
    simp [State.drawCell, h.not_gt, hattr]
  frame _ hchar hattr := State.read_drawCell_other s cell hchar hattr

/-- A grid draw whose pair is accepted draws its cell at the pair's offset. -/
theorem exec_fbDraw_accepted {row col : Half} {s : State} (cell : Cell)
    (h : gridRejects s.cfg.policy row col = false) :
    ∃ t, exec (.fbDraw row col cell) s = .next t ∧ s.Draws cell (row.toNat * 160 + col.toNat * 2) t :=
  ⟨_, execFbDraw_accepted h, s.drawCell_respond_draws cell (gridOffset_even row col)⟩

/-- The bytes of a cell drawn in the region, by their addresses. -/
theorem State.Draws.read_inside {s t : State} {cell : Cell} {offset : Nat} (h : s.Draws cell offset t)
    (hinside : offset < 4000) :
    t.mem.read (s.cfg.fbBase + offset) = some cell.char ∧
      t.mem.read (s.cfg.fbBase + offset + 1) = some cell.attr := by
  rw [← h.cfg]
  exact h.inside hinside

/-- A cell drawn in the region leaves the mark as it was. -/
theorem State.Draws.mark_inside {s t : State} {cell : Cell} {offset : Nat} (h : s.Draws cell offset t)
    (hinside : offset < 4000) : t.leftRegion = s.leftRegion := by
  simp [h.mark, hinside.not_ge]

/-- A cell drawn beyond the region sets the mark. -/
theorem State.Draws.mark_beyond {s t : State} {cell : Cell} {offset : Nat} (h : s.Draws cell offset t)
    (hbeyond : 4000 ≤ offset) : t.leftRegion = true := by
  simp [h.mark, hbeyond]

/-- A drawn cell is answered with STATUS_OK. -/
theorem State.Draws.resp {s t : State} {cell : Cell} {offset : Nat} (h : s.Draws cell offset t) :
    t.resp = s.resp ++ [⟨0#32, 0#32⟩] :=
  State.resp_of_issued h.issued

/-- A drawn cell is two memory writes. -/
theorem State.Draws.mtrace {s t : State} {cell : Cell} {offset : Nat} (h : s.Draws cell offset t) :
    t.mtrace = s.mtrace ++ [(s.cfg.fbBase + offset, cell.char), (s.cfg.fbBase + offset + 1, cell.attr)] :=
  State.mtrace_of_issued h.issued

/-- Settles O19: the limits of the literal policy are 25 and 80. -/
theorem fbDrawWithLiteralBounds : Obligations.FbDrawWithLiteralBounds := by
  refine ⟨rfl, fun row col cell s hpolicy =>
    ⟨decode_of_encode_eq (encode_fbDraw_eq_ofNat row col cell), fun hbounds => ?_, fun hbounds => ?_⟩⟩
  · exact exec_fbDraw_rejected (by rw [hpolicy]; exact gridRejects_iff.2 hbounds)
  · obtain ⟨t, hexec, hdraws⟩ :=
      exec_fbDraw_accepted cell (by rw [hpolicy]; exact gridRejects_eq_false_iff.2 hbounds)
    exact ⟨t, hexec, hdraws.cfg, hdraws.commands, hdraws.seq, hdraws.issued, hdraws.mark, hdraws.read_inside,
      hdraws.frame⟩

/-- Settles O20: the limits of the corrected policy are 24 and 79, so an accepted pair's offset is in the region. -/
theorem fbDrawWithCorrectedBounds : Obligations.FbDrawWithCorrectedBounds := by
  refine fun row col cell s hpolicy => ⟨fun hbounds => ?_, fun hbounds => ?_⟩
  · exact exec_fbDraw_rejected (by rw [hpolicy]; exact gridRejects_iff.2 hbounds)
  · obtain ⟨hrow, hcol⟩ := hbounds
    obtain ⟨t, hexec, hdraws⟩ :=
      exec_fbDraw_accepted cell (gridRejects_eq_false_of_inGrid hrow hcol s.cfg.policy)
    have hoffset : row.toNat * 160 + col.toNat * 2 ≤ 3998 := by omega
    obtain ⟨hchar, hattr⟩ := hdraws.read_inside (by omega)
    exact ⟨⟨Nat.lt_succ_of_le hrow, Nat.lt_succ_of_le hcol⟩, hoffset, t, hexec, hdraws.cfg, hdraws.commands,
      hdraws.seq, hdraws.mark_inside (by omega), hdraws.issued, hchar, hattr, hdraws.frame⟩

/-! ### Where an accepted draw lands (R106) -/

/-- A cell drawn at a place in the region stands there, and the mark is as it was. -/
theorem State.Draws.lands_at {s t : State} {cell : Cell} {offset place : Nat} (h : s.Draws cell offset t)
    (hplace : offset = place) (hinside : place < 4000) :
    t.buffer place = some cell.char ∧ t.buffer (place + 1) = some cell.attr ∧ t.leftRegion = s.leftRegion := by
  subst hplace
  obtain ⟨hchar, hattr⟩ := h.inside hinside
  exact ⟨hchar, hattr, h.mark_inside hinside⟩

/-- Settles O23: in each class the offset is the class's own, below 4000 in the first two, at least 4000 in the
third. -/
theorem acceptedDrawsFallInThreeClasses : Obligations.AcceptedDrawsFallInThreeClasses := by
  intro row col cell s hpolicy hrow hcol
  obtain ⟨t, hexec, hdraws⟩ :=
    exec_fbDraw_accepted cell (by rw [hpolicy]; exact gridRejects_eq_false_iff.2 ⟨hrow, hcol⟩)
  refine ⟨t, hexec, hdraws.resp, ?inGrid, ?aliasing, ?outOfRegion⟩
  case inGrid => exact fun ⟨hrow, hcol⟩ => hdraws.lands_at (by omega) (by omega)
  case aliasing => exact fun ⟨hrow, hcol⟩ => hdraws.lands_at (by omega) (by omega)
  case outOfRegion =>
    intro hclass
    have hoffset : row.toNat * 160 + col.toNat * 2 =
        4000 + if row.toNat = 25 then 2 * col.toNat else 0 := by split <;> omega
    rw [hoffset] at hdraws
    refine ⟨hdraws.beyond (Nat.le_add_right _ _), hdraws.mark_beyond (Nat.le_add_right _ _), _, rfl,
      by split <;> omega, ?_⟩
    simpa [Nat.add_assoc] using hdraws.mtrace

/-! ### Commands have no memory (R20, R108) -/

/-- Settles O36: the acts are the word's writes and its answer, which are functions of the parameters and the word. -/
theorem commandsDependOnWordAndParametersOnly : Obligations.CommandsDependOnWordAndParametersOnly := by
  intro w s s' rest rest' hcfg hidle hidle' hc hc'
  refine ⟨_, _, wordWrites s.cfg w ++ [.resp (wordAnswer s.cfg w)], step_take hidle hc, step_take hidle' hc', ?_, ?_⟩
  · simp
  · simp [hcfg]

end Machine
end Sys2Proof

/-! PROOFS of the serial statements (44_serial.md): UART.DIV's word and its acts, the line-control port, the divisor's
two bytes, and the byte last sent to a port. -/

namespace Sys2Proof

/-- UART.DIV's word as the sum of its fields (format U of R51). -/
theorem encode_uartDiv_eq_ofNat (base divisor : Half) :
    encode (.uartDiv base divisor) = BitVec.ofNat 64 (0x09 * 2 ^ 56 + base.toNat * 2 ^ 16 + divisor.toNat) := by
  rw [encode, place_eq_ofNat 56, ofNat_or_place base (by decide), ofNat_or_place divisor (by omega)]
  simp

namespace Machine

/-! ### The line-control port (R113) -/

/-- The line-control port's number: base + 3, wrapped to 16 bits. -/
theorem lineControlPort_toNat (base : Half) : (lineControlPort base).toNat = (base.toNat + 3) % 2 ^ 16 :=
  toNat_narrow 16 (base.toNat + 3)

/-- The line-control port is never the base port, wrapped or not. -/
theorem lineControlPort_ne_base (base : Half) : lineControlPort base ≠ base := by
  rw [ne_eq, ← BitVec.toNat_inj, lineControlPort_toNat]
  omega

/-! ### The divisor's two bytes (R114) -/

/-- The high byte is the number's quotient by 256, narrowed. -/
theorem highByte_eq_narrow (v : Half) : highByte v = narrow 8 (v.toNat / 256) := by
  rw [highByte, narrowBits, narrow, ← BitVec.ofNat_toNat, BitVec.toNat_ushiftRight, Nat.shiftRight_eq_div_pow]

/-- The low byte is the number, narrowed. -/
theorem lowByte_eq_narrow (v : Half) : lowByte v = narrow 8 v.toNat :=
  (BitVec.ofNat_toNat 8 v).symm

/-- The low byte is the number's residue modulo 256. -/
theorem lowByte_eq_narrow_mod (v : Half) : lowByte v = narrow 8 (v.toNat % 256) :=
  (lowByte_eq_narrow v).trans (narrow_eq_narrow_iff.mpr (Nat.mod_modEq _ _).symm)

/-- The high byte is bits 15 to 8. -/
theorem highByte_eq_extract (v : Half) : highByte v = v.extractLsb' 8 8 := rfl

/-- The low byte is bits 7 to 0. -/
theorem lowByte_eq_extract (v : Half) : lowByte v = v.extractLsb' 0 8 :=
  BitVec.setWidth_eq_extractLsb' (x := v) (by decide)

/-- A 16-bit value is its two bytes. -/
theorem toNat_eq_highByte_lowByte (v : Half) : v.toNat = (highByte v).toNat * 256 + (lowByte v).toNat := by
  have hlt := v.isLt
  rw [highByte_eq_narrow, lowByte_eq_narrow, toNat_narrow, toNat_narrow]
  omega

/-! ### What UART.DIV issues (R111) -/

/-- UART.DIV issues the three port writes of its rule and its response, and changes nothing else. -/
theorem exec_uartDiv (base divisor : Half) (s : State) :
    exec (.uartDiv base divisor) s = .next { s with
      seq := .idle
      issued := s.issued ++ [.port (lineControlPort base) dlabCmd, .port base (highByte divisor),
        .port base (lowByte divisor), .resp ⟨statusOk, 0#32⟩] } :=
  exec_of_no_memWrite (by simp [instrWrites])

/-- UART.DIV's three port writes, in order. -/
theorem exec_uartDiv_ptrace (base divisor : Half) (s : State) :
    ∃ t, exec (.uartDiv base divisor) s = .next t ∧
      t.ptrace = s.ptrace ++
        [(lineControlPort base, dlabCmd), (base, highByte divisor), (base, lowByte divisor)] := by
  refine ⟨_, exec_uartDiv base divisor s, ?_⟩
  rw [State.ptrace_of_issued (s := s) rfl]
  rfl

/-- Settles O25: the word is UART.DIV's encoding, and the bytes are the divisor's quotient and residue by 256. -/
theorem uartDivWritesThreePorts : Obligations.UartDivWritesThreePorts := by
  intro base divisor s
  refine ⟨decode_of_encode_eq (encode_uartDiv_eq_ofNat base divisor), ?_⟩
  rw [exec_uartDiv, highByte_eq_narrow, lowByte_eq_narrow_mod]
  rfl

/-- Settles O26: a base of at most 0xFFFC does not wrap, the three above it do, and DLAB goes out first. -/
theorem lineControlPortWraps : Obligations.LineControlPortWraps := by
  refine ⟨fun base h => ?_, by decide, by decide, by decide, fun base divisor s => ?_⟩
  · rw [lineControlPort_toNat]
    omega
  · obtain ⟨t, hexec, hptrace⟩ := exec_uartDiv_ptrace base divisor s
    exact ⟨t, _, hexec, hptrace⟩

/-- Settles O27: the two bytes as slices and as narrowed numbers, sent after DLAB. -/
theorem divisorSplitsIntoBytes : Obligations.DivisorSplitsIntoBytes := by
  refine fun divisor => ⟨highByte_eq_extract divisor, lowByte_eq_extract divisor, highByte_eq_narrow divisor,
    lowByte_eq_narrow divisor, toNat_eq_highByte_lowByte divisor, fun base s => ?_⟩
  obtain ⟨t, hexec, hptrace⟩ := exec_uartDiv_ptrace base divisor s
  exact ⟨t, _, hexec, hptrace⟩

/-! ### The byte last sent to a port (R21, R115) -/

/-- The port writes among some acts are those acts that are port writes. -/
theorem mem_filterMap_portPart {es : List Event} {p : Half} {v : Byte} :
    (p, v) ∈ es.filterMap Event.portPart ↔ Event.port p v ∈ es := by
  constructor
  · intro h
    obtain ⟨e, he, hpart⟩ := List.mem_filterMap.1 h
    cases e with
    | port q w =>
      cases hpart
      exact he
    | mem a w => cases hpart
    | resp r => cases hpart
  · exact fun h => List.mem_filterMap.2 ⟨_, h, rfl⟩

/-- Acts that write no byte to a port leave what was known of the last write there. -/
theorem foldl_latestPort_of_not_mem {es : List Event} {p : Half} (h : ∀ v, Event.port p v ∉ es)
    (found : Option Byte) : es.foldl (latestPort p) found = found := by
  induction es with
  | nil => rfl
  | cons e es ih =>
    have hhead : latestPort p found e = found := by
      cases e with
      | mem a v => rfl
      | port q v =>
        refine if_neg ?_
        rintro rfl
        exact h v List.mem_cons_self
      | resp r => rfl
    rw [List.foldl_cons, hhead, ih fun v hv => h v (List.mem_cons_of_mem e hv)]

/-- The byte last sent to a port stands through a run that sends no byte there. -/
theorem lastPortWrite_of_run {n : Nat} {t u : State} {p : Half} (hrun : Host.Core.run Sys2Proof.core n t = .next u)
    (hnone : ∀ v, (p, v) ∉ u.ptrace.drop t.ptrace.length) :
    lastPortWrite u.issued p = lastPortWrite t.issued p := by
  obtain ⟨es, hes⟩ := run_performs hrun
  have hunsent : ∀ v, Event.port p v ∉ es := by
    intro v
    have hv := hnone v
    rwa [State.ptrace_of_issued hes.issued, List.drop_left, mem_filterMap_portPart] at hv
  rw [hes.issued, lastPortWrite, List.foldl_append, foldl_latestPort_of_not_mem hunsent, lastPortWrite]

/-- After UART.DIV the base port was last sent the divisor's low byte, the line-control port DLAB, and every other
port what it was before. -/
theorem lastPortWrite_uartDiv {base divisor : Half} {s t : State} (h : exec (.uartDiv base divisor) s = .next t)
    (p : Half) :
    lastPortWrite t.issued p =
      if base = p then some (lowByte divisor)
      else if lineControlPort base = p then some dlabCmd
      else lastPortWrite s.issued p := by
  rw [exec_uartDiv] at h
  cases h
  by_cases hbase : base = p <;> simp [lastPortWrite, latestPort, hbase]

/-- DLAB was last commanded as bit 7 of the byte last sent to the line-control port (R16). -/
theorem dlabCommanded_of_last {s : State} {base : Half} {v : Byte}
    (h : lastPortWrite s.issued (lineControlPort base) = some v) : dlabCommanded s base = some (v.getLsbD 7) := by
  rw [dlabCommanded, h, Option.map_some]

/-- Settles O28: the line-control port is not the base port, so the divisor's bytes leave DLAB there, and so does
any run that sends no byte to it. -/
theorem uartDivLeavesDlabCommanded : Obligations.UartDivLeavesDlabCommanded := by
  intro base divisor s
  have hexec := exec_uartDiv base divisor s
  have hlast := lastPortWrite_uartDiv hexec
  have hdlab := (hlast (lineControlPort base)).trans (by rw [if_neg (lineControlPort_ne_base base).symm, if_pos rfl])
  refine ⟨_, hexec, dlabCommanded_of_last hdlab, hdlab, (hlast base).trans (if_pos rfl), ?others, ?later⟩
  case others =>
    intro p hbase hlcr
    rw [hlast, if_neg hbase.symm, if_neg hlcr.symm]
  case later =>
    intro n u hrun hnone
    exact dlabCommanded_of_last ((lastPortWrite_of_run hrun hnone).trans hdlab)

end Machine
end Sys2Proof

/-! PROOFS of the helper statements (45_helpers.md): what a run over the commands of an expansion does, the expansions
that write no memory, the banner's expansion as a list over its text, and the expansions that draw in the grid. -/

namespace Sys2Proof.Machine

/-! ### Running the commands of an expansion (R126) -/

/-- Acts that write no memory leave every byte as it was. -/
theorem foldl_perform_mem_of_memPart {es : List Event} (h : ∀ e ∈ es, e.memPart = none) (s : State) :
    (es.foldl State.perform s).mem = s.mem :=
  (congrArg State.mem (respond_foldl_perform_of_memPart h s ⟨0#32, 0#32⟩) :)

/-- A ready block runs its commands, one step each, and is left idle in front of the words after them, having
performed the commands' acts; memory stands when none of these writes memory. -/
theorem run_of_ready {is : List Instr} {s : State} {rest : List Word} (h : s.Ready is rest) :
    ∃ t, Host.Core.run Sys2Proof.core is.length s = .next t ∧ t.seq = .idle ∧ t.commands = rest ∧
      s.Performs (commandActs s.cfg is) t ∧
      ((∀ e ∈ commandActs s.cfg is, e.memPart = none) → t.mem = s.mem) := by
  induction is generalizing s with
  | nil =>
    obtain ⟨hidle, hrest⟩ := h
    exact ⟨s, rfl, hidle, hrest, .refl s, fun _ => rfl⟩
  | cons i is ih =>
    obtain ⟨hidle, hcommands⟩ := h
    have hacts := step_encode_performs hidle (step_issue hidle (encode i) (commandWords is ++ rest))
    obtain ⟨t, hrun, hseq, hrest, hperforms, hmem⟩ :=
      ih (s := (s.takeCommand (encode i) (commandWords is ++ rest)).finishCommand (encode i) 0)
        ⟨rfl, State.finishCommand_commands _ _ _⟩
    rw [hacts.cfg] at hperforms hmem
    refine ⟨t, (run_succ (step_take hidle hcommands)).trans hrun, hseq, hrest, hacts.trans hperforms, fun hnone => ?_⟩
    obtain ⟨hfirst, hothers⟩ := List.forall_mem_append.1 hnone
    refine (hmem hothers).trans (foldl_perform_mem_of_memPart ?_ (s.takeCommand _ _))
    simpa using fun e he => hfirst e (List.mem_append_left _ he)

/-- The memory writes of some commands are those their rules list. -/
theorem filterMap_memPart_commandActs (cfg : Config) (is : List Instr) :
    (commandActs cfg is).filterMap Event.memPart = is.flatMap fun i => (instrWrites cfg i).filterMap Event.memPart := by
  simp [commandActs, List.filterMap_flatMap, List.filterMap_cons]

/-- The port writes of some commands are those their rules list. -/
theorem filterMap_portPart_commandActs (cfg : Config) (is : List Instr) :
    (commandActs cfg is).filterMap Event.portPart =
      is.flatMap fun i => (instrWrites cfg i).filterMap Event.portPart := by
  simp [commandActs, List.filterMap_flatMap, List.filterMap_cons]

/-- Some commands are answered once each, in order (R24). -/
theorem filterMap_respPart_commandActs (cfg : Config) (is : List Instr) :
    (commandActs cfg is).filterMap Event.respPart = is.map (instrAnswer cfg) := by
  have hwrites (i : Instr) : (instrWrites cfg i).filterMap Event.respPart = [] := by
    rw [← wordWrites_encode, filterMap_respPart_wordWrites]
  simp [commandActs, List.filterMap_flatMap, hwrites, List.map_eq_flatMap]

/-- The acts of commands that write nothing are their answers. -/
theorem commandActs_of_no_writes {cfg : Config} {is : List Instr} (h : ∀ i ∈ is, instrWrites cfg i = []) :
    commandActs cfg is = is.map fun i => .resp (instrAnswer cfg i) := by
  rw [commandActs, List.map_eq_flatMap]
  exact List.flatMap_congr fun i hi => by rw [h i hi, List.nil_append]

/-! ### CELL.PUT and CUR.MOVE (R121, R125) -/

/-- The acts of CELL.PUT: the constructed cell is answered, then its two bytes are written and answered. -/
theorem commandActs_cellPut (cfg : Config) (offset : Half) (char fg bg : Byte) :
    commandActs cfg (cellPut offset char fg bg) =
      [.resp ⟨statusOk, cellValue (newCell char bg fg)⟩, .mem (fbAddr cfg offset.toNat) char,
        .mem (fbAddr cfg (offset.toNat + 1)) (attrByte fg bg), .resp ⟨statusOk, 0#32⟩] := rfl

/-- Settles O48: the drawn cell is the answered one, and its two bytes have different addresses. -/
theorem cellPutWritesOneCell : Obligations.CellPutWritesOneCell := by
  intro offset char fg bg s rest hready
  obtain ⟨t, hrun, hseq, hrest, hperforms, -⟩ := run_of_ready hready
  rw [commandActs_cellPut] at hperforms
  refine ⟨t, ⟨statusOk, cellValue (newCell char bg fg)⟩, hrun, hseq, hrest, ?issued, rfl, ?cell, ?low, ?high⟩
  case issued => exact Response.cell_cellValue _ _ ▸ hperforms.issued
  case cell => rw [Response.cell_cellValue, newCell, attrByte_eq_ofNat]
  case low => exact fun h => (hperforms.buffer h).trans (by simp [lastMemWrite, latestMem])
  case high => exact fun h => (hperforms.buffer h).trans (by simp [lastMemWrite, latestMem, attrByte_eq_ofNat])

/-- The acts of CUR.MOVE: four port writes, each answered with STATUS_OK. -/
theorem commandActs_curMove (cfg : Config) (p : HelperParams) (pos : Half) :
    commandActs cfg (curMove p pos) =
      [.port p.cursorCmdPort p.cursorSelHigh, .resp ⟨0#32, 0#32⟩,
        .port p.cursorDataPort (highByte pos), .resp ⟨0#32, 0#32⟩,
        .port p.cursorCmdPort p.cursorSelLow, .resp ⟨0#32, 0#32⟩,
        .port p.cursorDataPort (lowByte pos), .resp ⟨0#32, 0#32⟩] := rfl

/-- Settles O54: none of the acts writes memory. -/
theorem curMoveWritesTwoPortPairs : Obligations.CurMoveWritesTwoPortPairs := by
  intro p pos s rest hready
  obtain ⟨t, hrun, hseq, hrest, hperforms, hmem⟩ := run_of_ready hready
  rw [commandActs_curMove, highByte_eq_extract, lowByte_eq_extract] at hperforms hmem
  refine ⟨t, hrun, hseq, hrest, hmem (by simp), ?mtrace, ?ptrace, ?resp⟩
  case mtrace => exact (State.mtrace_of_issued hperforms.issued).trans (List.append_nil _)
  case ptrace => exact State.ptrace_of_issued hperforms.issued
  case resp => exact State.resp_of_issued hperforms.issued

/-! ### The banner's commands (R123) -/

/-- The two commands for one character of the banner, at its place in the text. -/
def bannerPair (p : HelperParams) (x : Byte × Nat) : List Instr :=
  [.cellNew x.1 p.bannerBg p.bannerFg, .fbDraw p.bannerRow (bannerCol p x.2) (newCell x.1 p.bannerBg p.bannerFg)]

/-- Beyond the string's end the banner has no commands. -/
theorem bannerChar_eq_nil {p : HelperParams} {i : Nat} (h : p.bannerText.length ≤ i) : bannerChar p i = [] := by
  rw [bannerChar, List.getElem?_eq_none h]

/-- Within the string the banner has one character's commands. -/
theorem bannerChar_eq_bannerPair {p : HelperParams} {x : Byte × Nat} (h : x ∈ p.bannerText.zipIdx) :
    bannerChar p x.2 = bannerPair p x := by
  rw [bannerChar, List.mem_zipIdx_iff_getElem?.1 h, bannerPair]

/-- The banner's commands, character by character of its text. -/
theorem fbBanner_eq_flatMap (p : HelperParams) : fbBanner p = p.bannerText.zipIdx.flatMap (bannerPair p) := by
  have hindices : List.range p.bannerText.length = p.bannerText.zipIdx.map Prod.snd := by
    rw [List.zipIdx_map_snd, List.range_eq_range']
  rw [fbBanner, fbBannerBounded, hindices, List.flatMap_map]
  exact List.flatMap_congr fun x hx => bannerChar_eq_bannerPair hx

/-- The banner has two commands per character. -/
theorem fbBanner_length (p : HelperParams) : (fbBanner p).length = 2 * p.bannerText.length := by
  simp [fbBanner_eq_flatMap, List.length_flatMap, bannerPair, Nat.mul_comm]

/-- Settles O51: the iterations beyond the string's end have no commands. -/
theorem bannerTruncatesAtTheStringsEnd : Obligations.BannerTruncatesAtTheStringsEnd := by
  intro p bound hbound
  obtain ⟨extra, rfl⟩ := Nat.exists_eq_add_of_le hbound
  have hbeyond : (List.range extra).flatMap (fun i => bannerChar p (p.bannerText.length + i)) = [] :=
    List.flatMap_eq_nil_iff.2 fun i _ => bannerChar_eq_nil (Nat.le_add_right _ i)
  refine ⟨?_, fbBanner_length p⟩
  rw [fbBannerBounded, List.range_add, List.flatMap_append, List.flatMap_map, hbeyond, List.append_nil]
  rfl

/-- A row above 25 is rejected at every column, under either policy (R101, R107). -/
theorem gridRejects_of_row {row : Half} (h : 25 < row.toNat) (policy : BoundsPolicy) (col : Half) :
    gridRejects policy row col = true := by
  refine gridRejects_iff.2 (.inl ?_)
  cases policy <;> simp only [rowLimit] <;> omega

/-- The commands of a banner whose row is out of range write nothing. -/
theorem instrWrites_fbBanner_of_row {p : HelperParams} (h : 25 < p.bannerRow.toNat) (cfg : Config) :
    ∀ i ∈ fbBanner p, instrWrites cfg i = [] := by
  intro i hi
  rw [fbBanner_eq_flatMap] at hi
  obtain ⟨x, -, hpair⟩ := List.mem_flatMap.1 hi
  obtain rfl | rfl : i = _ ∨ i = _ := by simpa [bannerPair] using hpair
  · rfl
  · simp [instrWrites, gridRejects_of_row h]

/-- The answers of a banner whose row is out of range: each character's cell, and ST_RANGE for its draw. -/
theorem map_instrAnswer_fbBanner_of_row {p : HelperParams} (h : 25 < p.bannerRow.toNat) (cfg : Config) :
    (fbBanner p).map (instrAnswer cfg) = p.bannerText.flatMap fun ch =>
      [⟨0#32, cellValue (newCell ch p.bannerBg p.bannerFg)⟩, ⟨0xFFFFFFFF#32, 0#32⟩] := by
  conv_rhs => rw [← List.zipIdx_map_fst 0 p.bannerText, List.flatMap_map]
  rw [fbBanner_eq_flatMap, List.map_flatMap]
  refine List.flatMap_congr fun x _ => ?_
  simp [bannerPair, instrAnswer, gridRejects_of_row h, statusOk, stRange]

/-- Settles O52: no command of the banner writes, so the acts are the answers alone. -/
theorem rejectedHelperDrawsDoNotStopIt : Obligations.RejectedHelperDrawsDoNotStopIt := by
  intro p s rest hready hrow
  have hanswers := commandActs_of_no_writes (instrWrites_fbBanner_of_row hrow s.cfg)
  have hmem : ∀ e ∈ commandActs s.cfg (fbBanner p), e.memPart = none := by simp [hanswers]
  have hport : ∀ e ∈ commandActs s.cfg (fbBanner p), e.portPart = none := by simp [hanswers]
  obtain ⟨t, hrun, hseq, hrest, hperforms, hkept⟩ := run_of_ready hready
  refine ⟨t, fbBanner_length p ▸ hrun, hseq, hrest, hkept hmem, ?mtrace, ?ptrace, ?resp⟩
  case mtrace => rw [State.mtrace_of_issued hperforms.issued, List.filterMap_eq_nil_iff.2 hmem, List.append_nil]
  case ptrace => rw [State.ptrace_of_issued hperforms.issued, List.filterMap_eq_nil_iff.2 hport, List.append_nil]
  case resp =>
    rw [State.resp_of_issued hperforms.issued, filterMap_respPart_commandActs, map_instrAnswer_fbBanner_of_row hrow]

/-! ### Memory writes among some acts -/

/-- The memory writes among some acts are those acts that are memory writes. -/
theorem mem_filterMap_memPart {es : List Event} {a : Nat} {v : Byte} :
    (a, v) ∈ es.filterMap Event.memPart ↔ Event.mem a v ∈ es := by
  refine ⟨fun h => ?_, fun h => List.mem_filterMap.2 ⟨_, h, rfl⟩⟩
  obtain ⟨e, he, hpart⟩ := List.mem_filterMap.1 h
  cases e with
  | mem b w =>
    cases hpart
    exact he
  | port q w => cases hpart
  | resp r => cases hpart

/-- The last write to an address is one of the acts, or none of the acts writes there. -/
theorem lastMemWrite_cases (es : List Event) (a : Nat) :
    (∃ v, lastMemWrite es a = some v ∧ Event.mem a v ∈ es) ∨
      (lastMemWrite es a = none ∧ ∀ v, Event.mem a v ∉ es) := by
  induction es with
  | nil => exact .inr ⟨rfl, fun _ => List.not_mem_nil⟩
  | cons e es ih =>
    rw [← List.singleton_append, lastMemWrite_append]
    obtain ⟨v, hlast, hv⟩ | ⟨hlast, hnone⟩ := ih
    · exact .inl ⟨v, by rw [hlast, Option.some_or], List.mem_append_right _ hv⟩
    · rw [hlast, Option.none_or]
      cases e with
      | mem b w => by_cases h : b = a <;> simp [lastMemWrite, latestMem, h, hnone, Ne.symm]
      | port p v => exact .inr ⟨rfl, by simpa using hnone⟩
      | resp r => exact .inr ⟨rfl, by simpa using hnone⟩

/-- A byte of the buffer to which the acts write one value only, and that value at least once, holds it. -/
theorem State.Performs.buffer_of_only_byte {s t : State} {es : List Event} (h : s.Performs es t) {i : Nat} {v : Byte}
    (hi : i < 4000) (hv : Event.mem (s.cfg.fbBase + i) v ∈ es)
    (honly : ∀ w, Event.mem (s.cfg.fbBase + i) w ∈ es → w = v) : t.buffer i = some v := by
  rw [h.buffer hi, fbAddr]
  obtain ⟨w, hlast, hw⟩ | ⟨-, hnone⟩ := lastMemWrite_cases es (s.cfg.fbBase + i)
  · rw [hlast, honly w hw, Option.some_or]
  · exact absurd hv (hnone v)

/-- An address to which no act writes reads as before. -/
theorem State.Performs.read_of_not_written {s t : State} {es : List Event} (h : s.Performs es t) {a : Nat}
    (hnone : ∀ v, Event.mem a v ∉ es) : t.mem.read a = s.mem.read a := by
  cases hregion : inRegion s.cfg a with
  | false => exact h.readOutside a hregion
  | true =>
    obtain ⟨v, -, hv⟩ | ⟨hlast, -⟩ := lastMemWrite_cases es a
    · exact absurd hv (hnone v)
    · rw [h.readInside a hregion, hlast, Option.none_or]

/-! ### Commands that compute cells and draw them in the grid (R122 to R124) -/

/-- The command computes a cell, or draws one at a pair of the stated grid, rows 0..24 and columns 0..79. -/
def PaintsGrid : Instr → Prop
  | .cellNew _ _ _ => True
  | .cellDef => True
  | .cellSetch _ _ => True
  | .cellSetbg _ _ => True
  | .cellSetfg _ _ => True
  | .cellDraw _ _ => False
  | .fbDraw row col _ => row.toNat ≤ 24 ∧ col.toNat ≤ 79
  | .portOut _ _ => False
  | .uartDiv _ _ => False

/-- What a grid draw draws: the pair's offset and the cell. -/
def drawnCell : Instr → Option (Nat × Cell)
  | .fbDraw row col cell => some (gridOffset row col, cell)
  | _ => none

/-- The cells some commands draw in the grid, with their offsets, in order. -/
def drawnCells (is : List Instr) : List (Nat × Cell) := is.filterMap drawnCell

/-- The memory writes of a cell drawn at an offset, character first (R91). -/
def cellByteWrites (cfg : Config) (d : Nat × Cell) : List (Nat × Byte) :=
  [(cfg.fbBase + d.1, d.2.char), (cfg.fbBase + d.1 + 1, d.2.attr)]

/-- A painting command's writes are the cell writer's, for the cell it draws, if any. -/
theorem instrWrites_of_paintsGrid {i : Instr} (h : PaintsGrid i) (cfg : Config) :
    instrWrites cfg i = (drawnCell i).toList.flatMap fun d => cellWrites cfg d.2 d.1 := by
  cases i with
  | fbDraw row col cell =>
    obtain ⟨hrow, hcol⟩ := h
    simp [instrWrites, gridRejects_eq_false_of_inGrid hrow hcol, drawnCell]
  | cellDraw | portOut | uartDiv => exact h.elim
  | _ => rfl

/-- A painting command answers STATUS_OK. -/
theorem instrAnswer_of_paintsGrid {i : Instr} (h : PaintsGrid i) (cfg : Config) :
    (instrAnswer cfg i).status = 0#32 := by
  cases i with
  | fbDraw row col cell =>
    obtain ⟨hrow, hcol⟩ := h
    simp [instrAnswer, gridRejects_eq_false_of_inGrid hrow hcol, statusOk]
  | cellDraw | portOut | uartDiv => exact h.elim
  | _ => rfl

/-- A painting command's cell lies in the region with both its bytes: its offset is even and below 4000. -/
theorem drawnCell_bounds {i : Instr} (h : PaintsGrid i) {d : Nat × Cell} (hd : drawnCell i = some d) :
    d.1 % 2 = 0 ∧ d.1 < 4000 := by
  cases i with
  | fbDraw row col cell =>
    obtain ⟨hrow, hcol⟩ := h
    cases hd
    refine ⟨gridOffset_even row col, ?_⟩
    unfold gridOffset
    omega
  | _ => cases hd

section

variable {is : List Instr} (hpaints : ∀ i ∈ is, PaintsGrid i)

include hpaints

/-- Offsets of drawn cells are even and below 4000. -/
theorem drawnCells_bounds {d : Nat × Cell} (hd : d ∈ drawnCells is) : d.1 % 2 = 0 ∧ d.1 < 4000 := by
  obtain ⟨i, hi, hdrawn⟩ := List.mem_filterMap.1 hd
  exact drawnCell_bounds (hpaints i hi) hdrawn

/-- The memory writes of painting commands are the bytes of the cells they draw, in order. -/
theorem memPart_of_paintsGrid (cfg : Config) :
    (commandActs cfg is).filterMap Event.memPart = (drawnCells is).flatMap (cellByteWrites cfg) := by
  rw [filterMap_memPart_commandActs, drawnCells, List.filterMap_eq_flatMap_toList, List.flatMap_assoc]
  refine List.flatMap_congr fun i hi => ?_
  rw [instrWrites_of_paintsGrid (hpaints i hi), List.filterMap_flatMap]
  rfl

/-- Painting commands write no port. -/
theorem portPart_of_paintsGrid (cfg : Config) : (commandActs cfg is).filterMap Event.portPart = [] := by
  rw [filterMap_portPart_commandActs, List.flatMap_eq_nil_iff]
  intro i hi
  rw [instrWrites_of_paintsGrid (hpaints i hi), List.filterMap_flatMap, List.flatMap_eq_nil_iff]
  exact fun _ _ => rfl

/-- Painting commands issue two memory writes per drawn cell. -/
theorem countMem_of_paintsGrid (cfg : Config) : countMem (commandActs cfg is) = 2 * (drawnCells is).length := by
  rw [countMem, memPart_of_paintsGrid hpaints]
  simp [List.length_flatMap, cellByteWrites, Nat.mul_comm]

/-- Painting commands issue no port write. -/
theorem countPort_of_paintsGrid (cfg : Config) : countPort (commandActs cfg is) = 0 := by
  rw [countPort, portPart_of_paintsGrid hpaints, List.length_nil]

/-- Every response to painting commands has status STATUS_OK. -/
theorem status_of_paintsGrid {cfg : Config} {r : Response} (hr : Event.resp r ∈ commandActs cfg is) :
    r.status = 0#32 := by
  have hanswers : r ∈ (commandActs cfg is).filterMap Event.respPart := List.mem_filterMap.2 ⟨_, hr, rfl⟩
  rw [filterMap_respPart_commandActs] at hanswers
  obtain ⟨i, hi, rfl⟩ := List.mem_map.1 hanswers
  exact instrAnswer_of_paintsGrid (hpaints i hi) cfg

/-- A memory write of painting commands is one of the two bytes of a drawn cell. -/
theorem mem_commandActs_iff {cfg : Config} {a : Nat} {v : Byte} :
    Event.mem a v ∈ commandActs cfg is ↔ ∃ d ∈ drawnCells is,
      (a = cfg.fbBase + d.1 ∧ v = d.2.char) ∨ (a = cfg.fbBase + d.1 + 1 ∧ v = d.2.attr) := by
  rw [← mem_filterMap_memPart, memPart_of_paintsGrid hpaints]
  simp [cellByteWrites]

/-- No act of painting commands leaves the region. -/
theorem stays_of_paintsGrid (cfg : Config) : (commandActs cfg is).any (Event.leavesRegion cfg) = false := by
  refine List.any_eq_false.2 fun e he => ?_
  cases e with
  | mem a v =>
    obtain ⟨d, hd, hbyte⟩ := (mem_commandActs_iff hpaints).1 he
    obtain ⟨heven, hinside⟩ := drawnCells_bounds hpaints hd
    have hregion : inRegion cfg a = true := (inRegion_iff cfg a).2 (by omega)
    simp [hregion]
  | port p v => simp
  | resp r => simp

variable {s t : State} (hperforms : s.Performs (commandActs s.cfg is) t)

include hperforms

/-- Painting commands leave the mark as it was. -/
theorem State.Performs.mark_of_paintsGrid : t.leftRegion = s.leftRegion := by
  rw [hperforms.mark, stays_of_paintsGrid hpaints, Bool.or_false]

/-- Painting commands append the bytes of the cells they draw to `mtrace`. -/
theorem State.Performs.mtrace_of_paintsGrid :
    t.mtrace = s.mtrace ++ (drawnCells is).flatMap (cellByteWrites s.cfg) := by
  rw [State.mtrace_of_issued hperforms.issued, memPart_of_paintsGrid hpaints]

/-- After painting commands the buffer holds every drawn cell at whose offset no other cell was drawn. -/
theorem State.Performs.buffer_of_paintsGrid {d : Nat × Cell} (hd : d ∈ drawnCells is)
    (honly : ∀ d' ∈ drawnCells is, d'.1 = d.1 → d' = d) :
    t.buffer d.1 = some d.2.char ∧ t.buffer (d.1 + 1) = some d.2.attr := by
  obtain ⟨heven, hinside⟩ := drawnCells_bounds hpaints hd
  refine ⟨hperforms.buffer_of_only_byte (v := d.2.char) hinside ?_ fun w hw => ?_,
    hperforms.buffer_of_only_byte (v := d.2.attr) (i := d.1 + 1) (by omega) ?_ fun w hw => ?_⟩
  · exact (mem_commandActs_iff hpaints).2 ⟨d, hd, .inl ⟨rfl, rfl⟩⟩
  · obtain ⟨d', hd', ⟨haddr, rfl⟩ | ⟨haddr, -⟩⟩ := (mem_commandActs_iff hpaints).1 hw
    · rw [honly d' hd' (by omega)]
    · have heven' := (drawnCells_bounds hpaints hd').1
      omega
  · exact (mem_commandActs_iff hpaints).2 ⟨d, hd, .inr ⟨rfl, rfl⟩⟩
  · obtain ⟨d', hd', ⟨haddr, -⟩ | ⟨haddr, rfl⟩⟩ := (mem_commandActs_iff hpaints).1 hw
    · have heven' := (drawnCells_bounds hpaints hd').1
      omega
    · rw [honly d' hd' (by omega)]

/-- Painting commands leave every byte that belongs to no drawn cell as it was. -/
theorem State.Performs.read_of_paintsGrid {a : Nat}
    (hapart : ∀ d ∈ drawnCells is, a ≠ s.cfg.fbBase + d.1 ∧ a ≠ s.cfg.fbBase + d.1 + 1) :
    t.mem.read a = s.mem.read a := by
  refine hperforms.read_of_not_written fun v hv => ?_
  obtain ⟨d, hd, hbyte⟩ := (mem_commandActs_iff hpaints).1 hv
  obtain ⟨hchar, hattr⟩ := hapart d hd
  exact hbyte.elim (fun h => hchar h.1) (fun h => hattr h.1)

end

/-! ### FB.CLEAR (R122) -/

/-- FB.CLEAR computes one cell, and draws it at pairs of the grid only. -/
theorem paintsGrid_of_mem_fbClear (p : HelperParams) : ∀ i ∈ fbClear p, PaintsGrid i := by
  intro i hi
  obtain rfl | ⟨q, hq, rfl⟩ := (List.mem_cons.1 hi).imp_right List.mem_map.1
  · trivial
  · exact gridPairs_bounds hq

/-- FB.CLEAR draws the blank cell at every even offset of the region, ascending. -/
theorem drawnCells_fbClear (p : HelperParams) :
    drawnCells (fbClear p) = (List.range 2000).map fun k => (2 * k, blankCell p) := by
  have hdraws : drawnCells (fbClear p) =
      (gridPairs.map fun q => gridOffset q.1 q.2).map fun offset => (offset, blankCell p) := by
    rw [drawnCells, fbClear, clearOver, List.filterMap_cons_none rfl, List.filterMap_map, List.map_map]
    exact congrFun List.filterMap_eq_map gridPairs
  rw [hdraws, gridPairs_offsets, List.map_map]
  rfl

/-- The attribute byte of the blank cell as a number (R54). -/
theorem blankCell_eq (p : HelperParams) :
    blankCell p = ⟨p.clearChar, BitVec.ofNat 8 (p.clearFg.toNat % 16 * 16 + p.clearBg.toNat % 16)⟩ := by
  rw [blankCell, newCell, attrByte_eq_ofNat]

/-- Settles O49: the commands paint the grid, with the blank cell at each of the 2000 even offsets of the region. -/
theorem fbClearFillsTheRegion : Obligations.FbClearFillsTheRegion := by
  intro p s rest hready
  have hlength : (fbClear p).length = 2001 := by rw [fbClear, clearOver_length, gridPairs_length]
  have hpaints := paintsGrid_of_mem_fbClear p
  have hcells := drawnCells_fbClear p
  rw [blankCell_eq] at hcells
  obtain ⟨t, hrun, hseq, hrest, hperforms, -⟩ := run_of_ready hready
  refine ⟨t, commandActs s.cfg (fbClear p), hlength ▸ hrun, hseq, hrest, hperforms.issued, ?writes,
    countPort_of_paintsGrid hpaints s.cfg, fun r => status_of_paintsGrid hpaints,
    hperforms.mark_of_paintsGrid hpaints, ?mtrace, ?bytes, ?frame⟩
  case writes => rw [countMem_of_paintsGrid hpaints, hcells, List.length_map, List.length_range]
  case mtrace =>
    rw [hperforms.mtrace_of_paintsGrid hpaints, hcells, List.flatMap_map]
    rfl
  case bytes =>
    intro k hk
    refine hperforms.buffer_of_paintsGrid hpaints (d := (2 * k, ⟨p.clearChar, _⟩)) ?_ ?_
    · exact hcells ▸ List.mem_map.2 ⟨k, List.mem_range.2 hk, rfl⟩
    · intro d' hd' hoffset
      obtain ⟨k', -, rfl⟩ := List.mem_map.1 (hcells ▸ hd')
      exact Prod.ext hoffset rfl
  case frame =>
    intro a ha
    refine hperforms.read_of_paintsGrid hpaints fun d hd => ?_
    obtain ⟨heven, hinside⟩ := drawnCells_bounds hpaints hd
    omega

/-! ### FB.BANNER in the grid (R123) -/

/-- The cell of the banner's character, with its offset in the banner's row. -/
def bannerCell (p : HelperParams) (x : Byte × Nat) : Nat × Cell :=
  (p.bannerRow.toNat * 160 + (p.bannerStartCol.toNat + x.2) * 2,
    ⟨x.1, BitVec.ofNat 8 (p.bannerFg.toNat % 16 * 16 + p.bannerBg.toNat % 16)⟩)

section

variable {p : HelperParams} (hcol : p.bannerStartCol.toNat + p.bannerText.length ≤ 80)

include hcol

/-- The columns of a banner that ends in its row are not narrowed. -/
theorem bannerCol_toNat {x : Byte × Nat} (hx : x ∈ p.bannerText.zipIdx) :
    (bannerCol p x.2).toNat = p.bannerStartCol.toNat + x.2 := by
  have hindex := List.snd_lt_of_mem_zipIdx hx
  rw [bannerCol, toNat_narrow]
  omega

/-- A banner whose row is in the grid and whose last column is at most 79 draws in the grid only. -/
theorem paintsGrid_of_mem_fbBanner (hrow : p.bannerRow.toNat ≤ 24) : ∀ i ∈ fbBanner p, PaintsGrid i := by
  intro i hi
  rw [fbBanner_eq_flatMap] at hi
  obtain ⟨x, hx, hpair⟩ := List.mem_flatMap.1 hi
  obtain rfl | rfl : i = _ ∨ i = _ := by simpa [bannerPair] using hpair
  · trivial
  · have hindex := List.snd_lt_of_mem_zipIdx hx
    exact ⟨hrow, by rw [bannerCol_toNat hcol hx]; omega⟩

/-- A banner that ends in its row draws one cell per character, at consecutive columns. -/
theorem drawnCells_fbBanner : drawnCells (fbBanner p) = p.bannerText.zipIdx.map (bannerCell p) := by
  rw [drawnCells, fbBanner_eq_flatMap, List.filterMap_flatMap, List.map_eq_flatMap]
  refine List.flatMap_congr fun x hx => ?_
  simp [bannerPair, bannerCell, List.filterMap_cons, drawnCell, gridOffset, bannerCol_toNat hcol hx, newCell,
    attrByte_eq_ofNat]

end

/-- Settles O50: the commands paint the grid, with a cell for each character, no two at one offset. -/
theorem fbBannerWritesOneCellPerCharacter : Obligations.FbBannerWritesOneCellPerCharacter := by
  intro p s rest hready hrow hcol
  have hpaints := paintsGrid_of_mem_fbBanner hcol hrow
  have hcells := drawnCells_fbBanner hcol
  obtain ⟨t, hrun, hseq, hrest, hperforms, -⟩ := run_of_ready hready
  refine ⟨t, commandActs s.cfg (fbBanner p), fbBanner_length p ▸ hrun, hseq, hrest, hperforms.issued, ?writes,
    countPort_of_paintsGrid hpaints s.cfg, fun r => status_of_paintsGrid hpaints,
    hperforms.mark_of_paintsGrid hpaints, ?bytes, ?frame⟩
  case writes => rw [countMem_of_paintsGrid hpaints, hcells, List.length_map, List.length_zipIdx]
  case bytes =>
    intro i ch hch
    refine hperforms.buffer_of_paintsGrid hpaints (d := bannerCell p (ch, i)) ?_ ?_
    · exact hcells ▸ List.mem_map_of_mem (List.mem_zipIdx_iff_getElem?.2 hch)
    · intro d' hd' hoffset
      obtain ⟨⟨ch', j⟩, hx, rfl⟩ := List.mem_map.1 (hcells ▸ hd')
      obtain rfl : j = i := by
        simp only [bannerCell] at hoffset
        omega
      obtain rfl : ch' = ch := Option.some.inj ((List.mem_zipIdx_iff_getElem?.1 hx).symm.trans hch)
      rfl
  case frame =>
    intro a ha
    refine hperforms.read_of_paintsGrid hpaints fun d hd => ?_
    obtain ⟨x, hx, rfl⟩ := List.mem_map.1 (hcells ▸ hd)
    have hindex := List.snd_lt_of_mem_zipIdx hx
    simp only [bannerCell]
    omega

/-! ### FB.CORNERS (R124) -/

/-- FB.CORNERS computes one cell, and draws it at pairs of the grid only. -/
theorem paintsGrid_of_mem_fbCorners : ∀ i ∈ fbCorners, PaintsGrid i := by
  simp [fbCorners, PaintsGrid]

/-- FB.CORNERS draws the sentinel at the offsets of the grid's four corners. -/
theorem drawnCells_fbCorners :
    drawnCells fbCorners = [0, 158, 3840, 3998].map fun offset => (offset, ⟨0x54#8, 0x20#8⟩) := by decide

/-- The answers of FB.CORNERS, under either policy: the sentinel, and STATUS_OK for each draw. -/
theorem map_instrAnswer_fbCorners (cfg : Config) :
    fbCorners.map (instrAnswer cfg) = ⟨0#32, 0x2054#32⟩ :: List.replicate 4 ⟨0#32, 0#32⟩ := by
  have hsentinel : cellValue defaultCell = 0x2054#32 := by decide
  have haccepted {row col : Half} (hrow : row.toNat ≤ 24) (hcol : col.toNat ≤ 79) :=
    gridRejects_eq_false_of_inGrid hrow hcol cfg.policy
  simp [fbCorners, instrAnswer, hsentinel, haccepted, statusOk]

/-- Settles O53: the commands paint the grid, with the sentinel at the four corners. -/
theorem fbCornersDrawsTheFourCorners : Obligations.FbCornersDrawsTheFourCorners := by
  intro s rest hready
  have hpaints := paintsGrid_of_mem_fbCorners
  obtain ⟨t, hrun, hseq, hrest, hperforms, -⟩ := run_of_ready hready
  refine ⟨t, hrun, hseq, hrest, ?ptrace, hperforms.mark_of_paintsGrid hpaints, ?mtrace, ?resp⟩
  case ptrace => rw [State.ptrace_of_issued hperforms.issued, portPart_of_paintsGrid hpaints, List.append_nil]
  case mtrace =>
    rw [hperforms.mtrace_of_paintsGrid hpaints, drawnCells_fbCorners, List.flatMap_map]
    rfl
  case resp =>
    rw [State.resp_of_issued hperforms.issued, filterMap_respPart_commandActs, map_instrAnswer_fbCorners]

end Sys2Proof.Machine

/-! PROOFS of the exception statements (60_exceptions.md): the writes and the answer of a word by what it decodes to,
the order of the failures, and that every step answers. -/

namespace Sys2Proof

/-- A word that is no command is one the decoder rejects. -/
theorem legalWord_eq_false_iff {w : Word} : legalWord w = false ↔ ∃ e, decode w = .error e := by
  cases h : decode w with
  | ok i => simp [legalWord, h]
  | error e => simp [legalWord, h]

namespace Machine

/-! ### A word by what it decodes to (R60, R61) -/

/-- A command's word has the command's writes and its answer. -/
theorem word_of_decode_ok {w : Word} {i : Instr} (h : decode w = .ok i) (cfg : Config) :
    wordWrites cfg w = instrWrites cfg i ∧ wordAnswer cfg w = instrAnswer cfg i := by
  simp [wordWrites, wordAnswer, h]

/-- An illegal word has no write, and answers ST_ILLEGAL (R143). -/
theorem word_of_decode_error {w : Word} {e : IllegalWord} (h : decode w = .error e) (cfg : Config) :
    wordWrites cfg w = [] ∧ wordAnswer cfg w = ⟨stIllegal, 0#32⟩ := by
  simp [wordWrites, wordAnswer, h]

/-! ### The order of the failures (R141, R146) -/

/-- A grid draw the bounds test rejects has no write, and answers ST_RANGE (R141). -/
theorem fbDraw_of_rejected {cfg : Config} {row col : Half} (h : gridRejects cfg.policy row col = true) (cell : Cell) :
    instrWrites cfg (.fbDraw row col cell) = [] ∧ instrAnswer cfg (.fbDraw row col cell) = ⟨stRange, 0#32⟩ := by
  simp [instrWrites, instrAnswer, h]

/-- A command that is no rejected grid draw is carried out (R144). -/
theorem instrAnswer_status_of_accepted {cfg : Config} {i : Instr}
    (h : ∀ row col cell, i = .fbDraw row col cell → gridRejects cfg.policy row col = false) :
    (instrAnswer cfg i).status = statusOk := by
  cases i with
  | fbDraw row col cell => simp [instrAnswer, h row col cell rfl]
  | _ => rfl

/-- The four commands that write answer the value 0, carried out or not. -/
theorem instrAnswer_value_of_writer {i : Instr} (h : i.mnemonic ∈ [.cellDraw, .fbDraw, .portOut, .uartDiv])
    (cfg : Config) : (instrAnswer cfg i).value = 0#32 := by
  cases i with
  | cellNew | cellDef | cellSetch | cellSetbg | cellSetfg => simp [Instr.mnemonic] at h
  | cellDraw | fbDraw | portOut | uartDiv => rfl

/-- Settles O29: the acts are the word's writes, then its answer; each failure is a case of what the word decodes
to, and of the bounds test for FB.DRAW. -/
theorem statusOfEveryWord : Obligations.StatusOfEveryWord := by
  intro s w rest hidle hc
  refine ⟨_, wordWrites s.cfg w, wordAnswer s.cfg w, step_take hidle hc, State.finishCommand_commands _ w 0,
    State.finishCommand_seq _ w 0, by simp, resp_not_mem_wordWrites s.cfg w, ?illegal, ?range, ?success⟩
  case illegal =>
    intro hillegal
    obtain ⟨e, he⟩ := legalWord_eq_false_iff.1 hillegal
    exact word_of_decode_error he s.cfg
  case range =>
    intro row col cell hdecode hrejects
    obtain ⟨hwrites, hanswer⟩ := word_of_decode_ok hdecode s.cfg
    rw [hwrites, hanswer]
    exact fbDraw_of_rejected hrejects cell
  case success =>
    intro i hdecode haccepted
    obtain ⟨-, hanswer⟩ := word_of_decode_ok hdecode s.cfg
    obtain ⟨-, -, hvalue⟩ := instrAnswer_legal s.cfg i
    rw [hanswer]
    exact ⟨instrAnswer_status_of_accepted haccepted, hvalue, fun hwriter => instrAnswer_value_of_writer hwriter s.cfg⟩

/-! ### Every step answers (R140) -/

/-- Settles O30: a command in flight is finished, an idle block waits or takes a word, and every command carries out
its writes and responds. -/
theorem everyStepAnswersNext : Obligations.EveryStepAnswersNext := by
  refine ⟨fun s => ?_, fun i s => ⟨_, exec_eq_writes i s⟩⟩
  cases hs : s.seq with
  | busy w k => exact ⟨_, step_busy hs⟩
  | idle =>
    cases hc : s.commands with
    | nil => exact ⟨_, step_wait hs hc⟩
    | cons w rest => exact ⟨_, step_take hs hc⟩

end Machine
end Sys2Proof

/-! PROOFS of the reset and hazards statements (70_reset_and_hazards.md): the block that waits, how many writes each
command performs, and a host whose draws stay in the region. -/

namespace Sys2Proof.Machine

/-! ### Waiting (R161, R153) -/

/-- Settles O32: the wait is the step's case of an idle block with an empty stream. -/
theorem idleBlockWaits : Obligations.IdleBlockWaits :=
  fun _ hidle hempty => step_wait hidle hempty

/-! ### The number of writes of a command (R173) -/

/-- A response is no memory write. -/
@[simp] theorem countMem_append_resp (es : List Event) (r : Response) : countMem (es ++ [.resp r]) = countMem es := by
  simp [countMem]

/-- A response is no port write. -/
@[simp] theorem countPort_append_resp (es : List Event) (r : Response) :
    countPort (es ++ [.resp r]) = countPort es := by
  simp [countPort]

/-- Settles O35: the acts of a command are the writes its rule lists and its response. -/
theorem commandsPerformFixedNumbersOfWrites : Obligations.CommandsPerformFixedNumbersOfWrites := by
  intro i s
  refine ⟨_, instrWrites s.cfg i ++ [.resp (instrAnswer s.cfg i)], exec_eq_writes i s, by simp, ?_⟩
  rw [countMem_append_resp, countPort_append_resp]
  cases i with
  | fbDraw row col cell =>
    cases hrejects : gridRejects s.cfg.policy row col <;> simp [instrWrites, hrejects, cellWrites, countMem, countPort]
  | _ => rfl

/-! ### A host whose draws stay in the region (R164, R35) -/

/-- A word stays in the region when none of its writes leaves it. -/
theorem wordStaysInRegion_iff {cfg : Config} {w : Word} :
    wordStaysInRegion cfg w = true ↔ (wordWrites cfg w).any (Event.leavesRegion cfg) = false := by
  simp [wordStaysInRegion]

/-- Words that stay in the region leave the mark as it was, by induction on the number of steps: a step of an idle
block waits, or takes the next of them. -/
theorem run_mark_of_staysInRegion {n : Nat} {s t : State} (hidle : s.seq = .idle)
    (hrun : Host.Core.run Sys2Proof.core n s = .next t)
    (hstays : ∀ w ∈ s.commands.take n, wordStaysInRegion s.cfg w = true) : t.leftRegion = s.leftRegion := by
  induction n generalizing s with
  | zero =>
    cases hrun
    rfl
  | succ n ih =>
    obtain ⟨u, hstep, hrest⟩ := run_succ_inv hrun
    obtain ⟨-, hempty, rfl⟩ | ⟨w, rest, -, hc, rfl⟩ | ⟨w, k, hbusy, -⟩ := step_cases hstep
    · exact ih hidle hrest (by simp [hempty])
    · rw [hc, List.take_succ_cons, List.forall_mem_cons] at hstays
      obtain ⟨hfirst, hothers⟩ := hstays
      rw [ih rfl hrest (by simpa using hothers)]
      simp [wordStaysInRegion_iff.1 hfirst]
    · simp [hidle] at hbusy

/-- Draws of the command, if it is one, are in-grid or at a raw offset of at most 3998 (R164, R35). -/
def DrawsInside (i : Instr) : Prop :=
  (∀ row col cell, i = .fbDraw row col cell → InGrid row col) ∧
  (∀ cell offset, i = .cellDraw cell offset → offset.toNat ≤ 3998)

/-- The cell writer at an offset of at most 3998 writes inside the region, the second byte included. -/
theorem cellWrites_stay {offset : Nat} (h : offset ≤ 3998) (cfg : Config) (cell : Cell) :
    (cellWrites cfg cell offset).any (Event.leavesRegion cfg) = false := by
  have hchar : offset < 4000 := by omega
  have hattr : offset + 1 < 4000 := by omega
  simp [cellWrites, hchar, hattr]

/-- The offset of a pair of the grid is at most 3998, that of (24, 79). -/
theorem InGrid.gridOffset_le {row col : Half} (h : InGrid row col) : gridOffset row col ≤ 3998 := by
  obtain ⟨hrow, hcol⟩ := h
  unfold rows at hrow
  unfold cols at hcol
  unfold gridOffset
  omega

/-- A command whose draws are inside writes nothing outside the region, whatever the bounds test accepts. -/
theorem instrWrites_stay {i : Instr} (h : DrawsInside i) (cfg : Config) :
    (instrWrites cfg i).any (Event.leavesRegion cfg) = false := by
  obtain ⟨hgrid, hraw⟩ := h
  cases i with
  | cellDraw cell offset => exact cellWrites_stay (hraw cell offset rfl) cfg cell
  | fbDraw row col cell =>
    cases hrejects : gridRejects cfg.policy row col with
    | true => simp [instrWrites, hrejects]
    | false => simpa [instrWrites, hrejects] using cellWrites_stay (hgrid row col cell rfl).gridOffset_le cfg cell
  | _ => rfl

/-- A word that is no command, or a command whose draws are inside, stays in the region. -/
theorem wordStaysInRegion_of_drawsInside {w : Word} (h : ∀ i, decode w = .ok i → DrawsInside i) (cfg : Config) :
    wordStaysInRegion cfg w = true := by
  rw [wordStaysInRegion_iff]
  cases hdecode : decode w with
  | ok i =>
    rw [(word_of_decode_ok hdecode cfg).1]
    exact instrWrites_stay (h i hdecode) cfg
  | error e =>
    rw [(word_of_decode_error hdecode cfg).1]
    rfl

/-- Settles O46: each word the run takes stays in the region. -/
theorem inGridHostsStayInTheRegion : Obligations.InGridHostsStayInTheRegion :=
  fun _ s _ hidle hrun hdraws => run_mark_of_staysInRegion hidle hrun fun w hw =>
    wordStaysInRegion_of_drawsInside (hdraws w hw) s.cfg

end Sys2Proof.Machine
